-- ==== Sys2Proof/Word.lean ====
section
/-! DEFINITION. The word types of the machine (R4, R7): bytes, 32-bit words, 64-bit counter values, the 16-word
state matrix and the 64-byte block. -/

namespace Sys2Proof

/-- A byte is 8 bits (R7). -/
abbrev Byte := BitVec 8

/-- A word is 32 bits (R4, `WORD_BITS`). -/
abbrev Word := BitVec 32

/-- A counter value, 64 bits, unsigned (R4, `CTR_BITS`; R12). -/
abbrev Dword := BitVec 64

/-- A matrix of 16 words, row-major, indices 0..15 (R4, `NWORDS`; R10). -/
abbrev StateMatrix := Vector Word 16

/-- A keystream block, and the size of the overflow buffer: 64 bytes (R4, `BLOCK_BYTES`). -/
abbrev Block := Vector Byte 64

end Sys2Proof
end

