-- ==== Sys2Proof/Syntax.lean ====
section
/-! DEFINITION. The commands of the block, one constructor per row of the opcode table (R53), and the opcode and
format of each. -/

namespace Sys2Proof

/-- The four commands (R53). The operands are the decoded operands of R53; `KLEN` of a LOAD is the number of its key
bytes and `LEN` of an ENC the number of its data bytes, as in the syntax of R60. -/
inductive Instr where
  /-- LOAD, `new(key, nonce, counter)`: format K. -/
  | load (key : List Byte) (nonce : Vector Byte 8) (ctr0 : Dword)
  /-- GEN, `generate(buffer)`: format L. -/
  | gen (len : Word)
  /-- ENC, `encrypt(buffer)`: format D; also DEC (R61). -/
  | enc (data : List Byte)
  /-- SEEK, `set_counter(value)`: format S. -/
  | seek (value : Dword)
  deriving DecidableEq, Repr

/-- The four opcodes that are not reserved (R53, R56). -/
inductive Opcode where
  | load
  | gen
  | enc
  | seek
  deriving DecidableEq, Repr

/-- The four frame formats (R52). -/
inductive FrameFormat where
  | K
  | L
  | D
  | S
  deriving DecidableEq, Repr

end Sys2Proof
end

