-- ==== Sys2Proof/WellFormed.lean ====
section
/-! DEFINITION. Which commands a frame can carry: the bounds that the length fields of R52 set. -/

namespace Sys2Proof

/-- A command that some frame carries. `KLEN` is an 8-bit field, so a key has at most 255 bytes; every such length is a
legal frame, whatever LOAD then answers (R57). `LEN` is a 32-bit field, so the data of an ENC has at most `2^32 - 1`
bytes (R5, R52). Every length of a GEN and every counter value is legal (R52). -/
def Instr.wellFormed : Instr → Bool
  | .load key _ _ => decide (key.length ≤ 255)
  | .gen _ => true
  | .enc data => decide (data.length ≤ 4294967295)
  | .seek _ => true

end Sys2Proof
end

