-- ==== Sys2Proof/Decode.lean ====
section
/-! DEFINITION. Byte order (R31), the command frame (R51 to R57, R59), the decoder, the encoder and the reading of an
opcode-table word. -/

namespace Sys2Proof

/-! ## Byte order (R31): little-endian, and no other -/

/-- `le32(b0, b1, b2, b3)` is the word `b3 ‖ b2 ‖ b1 ‖ b0` (R7, R31). -/
def le32 (b0 b1 b2 b3 : Byte) : Word := b3 ++ b2 ++ b1 ++ b0

/-- `le64(b0, …, b7)` (R7, R31). -/
def le64 (b0 b1 b2 b3 b4 b5 b6 b7 : Byte) : Dword := b7 ++ b6 ++ b5 ++ b4 ++ b3 ++ b2 ++ b1 ++ b0

/-- Byte `j` of a word, bits `[8j+7 : 8j]` (R31). -/
def wordByte (w : Word) (j : Nat) : Byte := w.extractLsb' (8 * j) 8

/-- `bytes_le32(w) = (w[7:0], w[15:8], w[23:16], w[31:24])` (R31). -/
def bytesLe32 (w : Word) : List Byte := [wordByte w 0, wordByte w 1, wordByte w 2, wordByte w 3]

/-- Byte `j` of a 64-bit value, bits `[8j+7 : 8j]`. -/
def dwordByte (d : Dword) (j : Nat) : Byte := d.extractLsb' (8 * j) 8

/-- The eight bytes of a 64-bit frame integer, least significant first (R52). -/
def bytesLe64 (d : Dword) : List Byte :=
  [dwordByte d 0, dwordByte d 1, dwordByte d 2, dwordByte d 3,
   dwordByte d 4, dwordByte d 5, dwordByte d 6, dwordByte d 7]

/-! ## The header (R51) -/

/-- `OPC`, bits `[7:0]` of the header word. -/
def cwOpc (cw : Word) : Byte := cw.extractLsb' 0 8

/-- `ARG`, bits `[15:8]` of the header word. -/
def cwArg (cw : Word) : Byte := cw.extractLsb' 8 8

/-- `RSVD`, bits `[31:16]` of the header word. -/
def cwRsvd (cw : Word) : BitVec 16 := cw.extractLsb' 16 16

/-- The opcode value of each command (R53). -/
def opcodeByte : Opcode → Byte
  | .load => 0x01
  | .gen => 0x02
  | .enc => 0x03
  | .seek => 0x04

/-- The opcode a byte spells; the 252 values `0x00` and `0x05..0xFF` are reserved (R53, R56). -/
def opcodeOf (opc : Byte) : Option Opcode :=
  if opc = 0x01 then some .load
  else if opc = 0x02 then some .gen
  else if opc = 0x03 then some .enc
  else if opc = 0x04 then some .seek
  else none

/-- Why a header is illegal (R56). The block answers all three alike (R143). -/
inductive HeaderError where
  /-- `OPC` is not one of `0x01..0x04`. -/
  | reservedOpcode
  /-- `RSVD != 0`. -/
  | reservedField
  /-- `ARG != 0` on GEN, ENC or SEEK. -/
  | argumentField
  deriving DecidableEq, Repr

/-- A legal header: the opcode and `ARG` (`KLEN` of a LOAD, else 0). -/
structure Header where
  op : Opcode
  arg : Byte
  deriving DecidableEq, Repr

/-- Every header word is one of the four commands or illegal (R56); every `KLEN` is legal (R57). -/
def decodeHeader (cw : Word) : Except HeaderError Header :=
  match opcodeOf (cwOpc cw) with
  | none => .error .reservedOpcode
  | some op =>
    if cwRsvd cw ≠ 0 then .error .reservedField
    else if op ≠ .load ∧ cwArg cw ≠ 0 then .error .argumentField
    else .ok ⟨op, cwArg cw⟩

/-! ## The payload (R52, R53) -/

/-- The first `n` bytes and the rest, where `n` bytes have arrived. -/
def takeBytes (n : Nat) (bs : List Byte) : Option (List Byte × List Byte) :=
  if n ≤ bs.length then some (bs.take n, bs.drop n) else none

/-- A 32-bit integer field, `le32` (R52). -/
def takeU32 : List Byte → Option (Word × List Byte)
  | b0 :: b1 :: b2 :: b3 :: rest => some (le32 b0 b1 b2 b3, rest)
  | _ => none

/-- A 64-bit integer field, `le64` (R52). -/
def takeU64 : List Byte → Option (Dword × List Byte)
  | b0 :: b1 :: b2 :: b3 :: b4 :: b5 :: b6 :: b7 :: rest => some (le64 b0 b1 b2 b3 b4 b5 b6 b7, rest)
  | _ => none

/-- The eight nonce bytes, `nonce[0]` first (R52). -/
def takeNonce : List Byte → Option (Vector Byte 8 × List Byte)
  | b0 :: b1 :: b2 :: b3 :: b4 :: b5 :: b6 :: b7 :: rest => some (#v[b0, b1, b2, b3, b4, b5, b6, b7], rest)
  | _ => none

/-- Format K after the header: `KEY` (`klen` bytes), `NONCE`, `CTR0` (R52). -/
def decodeLoad (klen : Nat) (p : List Byte) : Option (Instr × List Byte) :=
  match takeBytes klen p with
  | none => none
  | some (key, p1) =>
    match takeNonce p1 with
    | none => none
    | some (nonce, p2) =>
      match takeU64 p2 with
      | none => none
      | some (ctr0, rest) => some (.load key nonce ctr0, rest)

/-- Format L after the header: `LEN` (R52). -/
def decodeGen (p : List Byte) : Option (Instr × List Byte) :=
  match takeU32 p with
  | none => none
  | some (len, rest) => some (.gen len, rest)

/-- Format D after the header: `LEN`, then `LEN` bytes of `DATA` (R52). -/
def decodeEnc (p : List Byte) : Option (Instr × List Byte) :=
  match takeU32 p with
  | none => none
  | some (len, p1) =>
    match takeBytes len.toNat p1 with
    | none => none
    | some (data, rest) => some (.enc data, rest)

/-- Format S after the header: `VALUE` (R52). -/
def decodeSeek (p : List Byte) : Option (Instr × List Byte) :=
  match takeU64 p with
  | none => none
  | some (value, rest) => some (.seek value, rest)

/-- The payload of a legal header, where all its bytes have arrived. -/
def decodePayload (h : Header) (p : List Byte) : Option (Instr × List Byte) :=
  match h.op with
  | .load => decodeLoad h.arg.toNat p
  | .gen => decodeGen p
  | .enc => decodeEnc p
  | .seek => decodeSeek p

/-! ## The decoder (R55, R56) -/

/-- What the bytes at the front of CMD are. -/
inductive Decoded where
  /-- A whole frame of the command `i`, and the bytes after it. -/
  | instr (i : Instr) (rest : List Byte)
  /-- An illegal header, rejected by name, and the bytes after its four bytes (R56). -/
  | illegal (e : HeaderError) (rest : List Byte)
  /-- A frame some of whose bytes are missing (R55). -/
  | incomplete
  deriving DecidableEq, Repr

/-- The frame decoder, total on any bytes. A frame is acted on only when all its bytes have arrived; a frame whose
header is illegal ends with the header (R55, R56). -/
def decode (bs : List Byte) : Decoded :=
  match bs with
  | h0 :: h1 :: h2 :: h3 :: p =>
    match decodeHeader (le32 h0 h1 h2 h3) with
    | .error e => .illegal e p
    | .ok h =>
      match decodePayload h p with
      | none => .incomplete
      | some (i, rest) => .instr i rest
  | _ => .incomplete

/-! ## The encoder (R52, R60) -/

/-- The opcode of a command (R53). -/
def Instr.opcode : Instr → Opcode
  | .load _ _ _ => .load
  | .gen _ => .gen
  | .enc _ => .enc
  | .seek _ => .seek

/-- The frame format of a command (R53). -/
def Instr.format : Instr → FrameFormat
  | .load _ _ _ => .K
  | .gen _ => .L
  | .enc _ => .D
  | .seek _ => .S

/-- `ARG` of a command's header: `KLEN` for LOAD, 0 for every other (R51). -/
def Instr.arg : Instr → Byte
  | .load key _ _ => BitVec.ofNat 8 key.length
  | .gen _ => 0
  | .enc _ => 0
  | .seek _ => 0

/-- The four header bytes: `OPC`, `ARG`, and `RSVD = 0` in two bytes (R51). -/
def headerBytes (op : Opcode) (arg : Byte) : List Byte := [opcodeByte op, arg, 0, 0]

/-- The payload of a command (R52). -/
def payloadBytes : Instr → List Byte
  | .load key nonce ctr0 => key ++ nonce.toList ++ bytesLe64 ctr0
  | .gen len => bytesLe32 len
  | .enc data => bytesLe32 (BitVec.ofNat 32 data.length) ++ data
  | .seek value => bytesLe64 value

/-- The frame of a command, in the order its bytes go on CMD (R52). -/
def encode (i : Instr) : List Byte := headerBytes i.opcode i.arg ++ payloadBytes i

/-- The length of a command's frame: `20 + KLEN`, 8, `8 + LEN`, 12 (R52). -/
def Instr.frameLength : Instr → Nat
  | .load key _ _ => 20 + key.length
  | .gen _ => 8
  | .enc data => 8 + data.length
  | .seek _ => 12

/-! ## Where a frame ends, from its first bytes (R55) -/

/-- The length of the frame that begins with header word `cw`, its first payload field being `first` (read for ENC
only): R55. An illegal header is a frame of its own four bytes. -/
def frameEnd (cw first : Word) : Nat :=
  match decodeHeader cw with
  | .error _ => 4
  | .ok h =>
    match h.op with
    | .load => 20 + h.arg.toNat
    | .gen => 8
    | .enc => 8 + first.toNat
    | .seek => 12

/-! ## The words of the opcode table -/

/-- The first `n` bytes of the number `w`, its least significant byte first: how the bytes of a header and what follows
it go on CMD (R51, R52). -/
def tableBytes : Nat → Nat → List Byte
  | 0, _ => []
  | n + 1, w => BitVec.ofNat 8 w :: tableBytes n (w / 256)

/-- The whole frame whose first `nbits` bits are `w` and whose every later bit is 0. -/
def tableFrame (nbits w : Nat) : List Byte :=
  let given := w % 2 ^ nbits
  let len := frameEnd (BitVec.ofNat 32 given) (BitVec.ofNat 32 (given / 2 ^ 32))
  tableBytes len given

/-- The command the decoder reads from an opcode-table word: bit 0 is the least significant bit of the first byte. -/
def decodeTableWord (nbits w : Nat) : Option Instr :=
  match decode (tableFrame nbits w) with
  | .instr i _ => some i
  | .illegal _ _ => none
  | .incomplete => none

end Sys2Proof
end

