-- ==== Sys2Proof/Config.lean ====
section
/-! DEFINITION. What the specification leaves open: the reset contents of the registers it gives no value, and the
content of a GEN command's working buffer before it is written. -/

namespace Sys2Proof

/-- The register file after reset. R22 says "unspecified: hold no value".
DESIGN CHOICE, unsafe: all zero (notes/assumptions/1.md); no statement rests on it. -/
def Config.resetX : StateMatrix := Vector.replicate 16 0

/-- The overflow-buffer hold register after reset. R22 says "unspecified: hold no value".
DESIGN CHOICE, unsafe: all zero (notes/assumptions/1.md); no statement rests on it. -/
def Config.resetOvb : Block := Vector.replicate 64 0

/-- Byte `k` of the working buffer of a GEN command before MODIFY writes it: "N bytes with no initial value" (R38).
A free value: no body, so nothing can be proved of it (notes/assumptions/4.md); safe. -/
opaque Config.bufByte : Nat → Byte

end Sys2Proof
end

