-- ==== Sys2Proof/Machine/State.lean ====
section
/-! DEFINITION. The state of the block as plain data: the register file, the overflow buffer and its cursor, the flag
READY (R10 to R17), and the streams of its ports (R50); its value after reset (R22); why a step can stop. -/

namespace Sys2Proof.Machine

/-- What the host does to the block: it sends a byte on CMD, or it asserts RST (R50). -/
inductive Input where
  /-- One byte on the CMD stream. -/
  | byte (b : Byte)
  /-- RST is asserted (R160). -/
  | rst
  deriving DecidableEq, Repr

/-- The four responses (R58); no other code is ever sent. -/
inductive Response where
  /-- `0x00`: the command completed. -/
  | ok
  /-- `0x01`: LOAD with `KLEN` not in {16, 32}; nothing changed. -/
  | invalidKeySize
  /-- `0x02`: GEN, ENC or SEEK while `READY = 0`; nothing changed. -/
  | notReady
  /-- `0x03`: an illegal header; nothing changed. -/
  | illegalCmd
  deriving DecidableEq, Repr

/-- What the block does to the host: it puts a byte on DOUT, or a response on RSP (R50). -/
inductive Output where
  /-- One byte on the DOUT stream. -/
  | dout (b : Byte)
  /-- One response byte on the RSP stream. -/
  | rsp (r : Response)
  deriving DecidableEq, Repr

/-- The machine's state. The first four fields are the whole architectural state (10_state.md); `CTR` is the view
`X[9] ‖ X[8]` of `x` (R12). The last two are the ports. -/
structure State where
  /-- The block-state register file `X[0..15]` (R10). -/
  x : StateMatrix
  /-- The overflow-buffer hold register `OVB[0..63]` (R15). -/
  ovb : Block
  /-- The cursor `OFF`, 0..64; 64 means the buffer is empty (R16). -/
  off : Fin 65
  /-- The flag `READY`: an instance exists (R17). -/
  ready : Bool
  /-- What the host has sent (CMD bytes and RST assertions, oldest first) and the block has not yet taken. -/
  input : List Input
  /-- What has left the block on DOUT and RSP, oldest first. -/
  output : List Output
  deriving DecidableEq, Repr

/-- The machine stops with a fault: never. Every error of the specification is an answer after which the block is ready
for the next frame (R140, R147), and "No other failure exists" (R148). -/
inductive Fault where
  deriving DecidableEq, Repr

/-- Why an instruction has no meaning. -/
inductive Refusal where
  /-- Raised by `exec` for an instruction that has no meaning yet; no arm raises it. Safe. -/
  | notModelled (mnemonic : String)
  /-- Raised by GEN and ENC if MODIFY ever asked SERVE for more bytes than are left, which the specification gives no
  meaning (R115, U1: refuse); no state and no operand reach it. Safe. -/
  | serveBeyondLeftover
  deriving DecidableEq, Repr

/-- The block right after reset (R22): `READY = 0`, `OFF = 64`; `X` and `OVB` "unspecified", at the values of Config
(notes/assumptions/1.md). DESIGN CHOICE: the ports are empty (notes/assumptions/2.md, 3.md). -/
def State.reset : State where
  x := Config.resetX
  ovb := Config.resetOvb
  off := 64
  ready := false
  input := []
  output := []

end Sys2Proof.Machine
end

