-- ==== Sys2Proof/Machine/Ops.lean ====
section
/-! DEFINITION. The named operations over the state: the register file and its view CTR, the streams, the errors, the
reset, and the host's moves. -/

namespace Sys2Proof.Machine

/-! ## The register file and the counter (R7, R10, R12) -/

/-- The view `CTR = X[9] ‖ X[8]` of a matrix (R12). -/
def counterOf (x : StateMatrix) : Dword := x[9] ++ x[8]

/-- `CTR <- v`: `X[8] <- v[31:0]; X[9] <- v[63:32]`; the other fourteen words are kept (R7, R12). -/
def withCounter (x : StateMatrix) (v : Dword) : StateMatrix :=
  (x.set 8 (v.extractLsb' 0 32)).set 9 (v.extractLsb' 32 32)

/-- The block counter `CTR` (R12). -/
def State.ctr (s : State) : Dword := counterOf s.x

/-- Write the whole register file. -/
def State.setX (s : State) (m : StateMatrix) : State := { s with x := m }

/-! ## The streams (R38, R50, R58) -/

/-- The response codes (R58). -/
def Response.code : Response → Byte
  | .ok => 0x00
  | .invalidKeySize => 0x01
  | .notReady => 0x02
  | .illegalCmd => 0x03

/-- `emit(b)` for each byte of a string in order: it goes out on DOUT (R7, R38). -/
def State.emit (s : State) (bs : List Byte) : State := { s with output := s.output ++ bs.map .dout }

/-- `respond(code)`: one response byte goes out on RSP (R7, R58). -/
def State.respond (s : State) (r : Response) : State := { s with output := s.output ++ [.rsp r] }

/-- The DOUT byte of an output event, if it is one. -/
def Output.doutByte : Output → Option Byte
  | .dout b => some b
  | .rsp _ => none

/-- The response of an output event, if it is one. -/
def Output.response : Output → Option Response
  | .dout _ => none
  | .rsp r => some r

/-- The DOUT stream: every byte that has left on DOUT, oldest first (R50). -/
def State.dout (s : State) : List Byte := s.output.filterMap Output.doutByte

/-- The RSP stream: every response that has left on RSP, oldest first (R50). -/
def State.rsp (s : State) : List Response := s.output.filterMap Output.response

/-! ## Errors (R140 to R145) -/

/-- The complete list of errors (R140). What an error carries is not kept: there is no cause register (R140). -/
inductive Error where
  /-- R141. -/
  | invalidKeySize (klen : Nat)
  /-- R142. -/
  | notReady
  /-- R143. -/
  | illegalCmd
  deriving DecidableEq, Repr

/-- The response an error is answered with (R140). -/
def Error.response : Error → Response
  | .invalidKeySize _ => .invalidKeySize
  | .notReady => .notReady
  | .illegalCmd => .illegalCmd

/-- `raise <Error>(info)`: the command ends, no architectural state is changed, no byte goes out on DOUT, and the error's
response goes out on RSP (R140). Nothing is saved and there is nothing to return to (R145, R147). -/
def State.raiseError (s : State) (e : Error) : State := s.respond e.response

/-- The answer to an illegal header, whichever of the three it is (R56, R143). -/
def State.rejectHeader (s : State) (_ : HeaderError) : State := s.raiseError .illegalCmd

/-! ## Reset (R160) -/

/-- Asserting RST puts every piece of state at its value after reset (R22, R160). What the host has sent since, and what
has already left the block, are not the block's to change. -/
def State.assertReset (s : State) : State := { State.reset with input := s.input, output := s.output }

/-! ## The host's moves (R50, R160): no step makes them -/

/-- The host sends bytes on CMD; the stream is lossless and keeps order (R50). -/
def State.sendBytes (s : State) (bs : List Byte) : State := { s with input := s.input ++ bs.map .byte }

/-- The host asserts RST, after what it has sent so far (R160). -/
def State.sendReset (s : State) : State := { s with input := s.input ++ [.rst] }

end Sys2Proof.Machine
end

