-- ==== Sys2Proof/Machine/Flags.lean ====
section
/-! DEFINITION. The block stores no condition code and no operation has a flag side effect (R18). Three values are
computed and used within one operation: HASL, the wrap of the low counter word, and the mixer select. -/

namespace Sys2Proof.Machine

/-- The number of leftover bytes, `64 - OFF` (R16, R110). -/
def State.leftover (s : State) : Nat := 64 - s.off.val

/-- HASL: true when `OFF < 64` (R110). -/
def State.hasLeftover (s : State) : Bool := decide (s.off.val < 64)

/-- The low counter word "wrapped from all-ones to zero": its new value is zero (R18, R94). -/
def lowWrapped (newLow : Word) : Bool := newLow == 0

/-- The two mixers (R111). -/
inductive Mixer where
  /-- "plain copy — used for keystream generation". -/
  | overwrite
  /-- "used for encryption". -/
  | xor
  deriving DecidableEq, Repr

/-- `MIXSEL = OPC[0]`: 0 selects the overwrite mixer, 1 the XOR mixer (R54). -/
def mixSel (opc : Byte) : Mixer := if opc.getLsbD 0 then .xor else .overwrite

end Sys2Proof.Machine
end

