-- ==== Sys2Proof/Machine/Mixing.lean ====
section
/-! DEFINITION. The mixing datapath (40_mixing_datapath.md): ADD32, ROTL32, XOR32, QR, CROUND, RROUND, DROUND, CORE20.
Every operation is a total function that reads and writes no state (R70 to R78). -/

namespace Sys2Proof.Machine

/-- ADD32, `a +32 b = (a + b) mod 2^32`; the carry is dropped (R70). -/
def add32 (a b : Word) : Word := a + b

/-- ROTL32, `((v << n) mod 2^32) | (v >> (32 - n))`, used for `n` in {7, 9, 13, 18} only (R71). -/
def rotl32 (v : Word) (n : Nat) : Word := (v <<< n) ||| (v >>> (32 - n))

/-- XOR32, bitwise exclusive or (R72). -/
def xor32 (a b : Word) : Word := a ^^^ b

/-- The four words QR takes and returns, in order (R73). -/
structure Quad where
  a : Word
  b : Word
  c : Word
  d : Word
  deriving DecidableEq, Repr

/-- QR: the second line uses the new `b`, the third the new `c` and `b`, the fourth the new `d` and `c`; `a` stays the
old `a` until the last line (R73). -/
def quarterRound (a b c d : Word) : Quad :=
  let b' := xor32 b (rotl32 (add32 a d) 7)
  let c' := xor32 c (rotl32 (add32 b' a) 9)
  let d' := xor32 d (rotl32 (add32 c' b') 13)
  let a' := xor32 a (rotl32 (add32 d' c') 18)
  ⟨a', b', c', d'⟩

/-- CROUND: QR on the four columns, each starting at its diagonal word and going down (R74). -/
def columnRound (x : StateMatrix) : StateMatrix :=
  let q0 := quarterRound x[0] x[4] x[8] x[12]
  let q1 := quarterRound x[5] x[9] x[13] x[1]
  let q2 := quarterRound x[10] x[14] x[2] x[6]
  let q3 := quarterRound x[15] x[3] x[7] x[11]
  #v[q0.a, q1.d, q2.c, q3.b,
     q0.b, q1.a, q2.d, q3.c,
     q0.c, q1.b, q2.a, q3.d,
     q0.d, q1.c, q2.b, q3.a]

/-- RROUND: QR on the four rows, each starting at its diagonal word and going right (R75). -/
def rowRound (y : StateMatrix) : StateMatrix :=
  let q0 := quarterRound y[0] y[1] y[2] y[3]
  let q1 := quarterRound y[5] y[6] y[7] y[4]
  let q2 := quarterRound y[10] y[11] y[8] y[9]
  let q3 := quarterRound y[15] y[12] y[13] y[14]
  #v[q0.a, q0.b, q0.c, q0.d,
     q1.d, q1.a, q1.b, q1.c,
     q2.c, q2.d, q2.a, q2.b,
     q3.b, q3.c, q3.d, q3.a]

/-- DROUND: columns first, then rows (R76). -/
def doubleRound (x : StateMatrix) : StateMatrix := rowRound (columnRound x)

/-- `n` double-rounds. -/
def doubleRounds : Nat → StateMatrix → StateMatrix
  | 0, w => w
  | n + 1, w => doubleRounds n (doubleRound w)

/-- The feed-forward, `Z[i] <- W[i] +32 x[i]` (R77). -/
def feedForward (w x : StateMatrix) : StateMatrix := Vector.zipWith add32 w x

/-- The sixteen output words `Z[0..15]` of CORE20: exactly ten double-rounds, then the feed-forward (R77). -/
def coreWords (x : StateMatrix) : StateMatrix := feedForward (doubleRounds 10 x) x

/-- A block from sixteen words, `block[4i + j] = Z[i][8j+7 : 8j]` (R31, R33). -/
def serialize (z : StateMatrix) : Block :=
  Vector.ofFn fun k : Fin 64 => wordByte (z[k.val / 4]'(by omega)) (k.val % 4)

/-- CORE20, the block function (R77). -/
def core20 (x : StateMatrix) : Block := serialize (coreWords x)

/-! ## The optional cache (R21, R97): not part of the machine -/

/-- CORE20 started from cached words `C` in place of `CROUND(x)`. No step of the machine uses it; it states the one
requirement R97 puts on an implementation that caches. -/
def core20FromCache (c x : StateMatrix) : Block := serialize (feedForward (doubleRounds 9 (rowRound c)) x)

end Sys2Proof.Machine
end

