-- ==== Sys2Proof/Machine/Operands.lean ====
section
/-! DEFINITION. Operand assembly (R32, R53): words from key and nonce bytes, and the working buffer of a data command
(R38). -/

namespace Sys2Proof.Machine

/-- Word `j` of a byte string: `le32` of its bytes `4j .. 4j+3`, lowest byte index in the low bits (R32). -/
def wordAt (bs : List Byte) (j : Nat) (h : 4 * j + 4 ≤ bs.length) : Word :=
  le32 (bs[4 * j]'(by omega)) (bs[4 * j + 1]'(by omega)) (bs[4 * j + 2]'(by omega)) (bs[4 * j + 3]'(by omega))

/-- The four words of the 16 key bytes `key[16p .. 16p+15]` (R32, R90). -/
def keyHalf (key : List Byte) (p : Nat) (h : 16 * p + 16 ≤ key.length) : Vector Word 4 :=
  #v[wordAt key (4 * p) (by omega), wordAt key (4 * p + 1) (by omega),
     wordAt key (4 * p + 2) (by omega), wordAt key (4 * p + 3) (by omega)]

/-- The two words of the nonce (R32). -/
def nonceWords (nonce : Vector Byte 8) : Vector Word 2 :=
  #v[le32 nonce[0] nonce[1] nonce[2] nonce[3], le32 nonce[4] nonce[5] nonce[6] nonce[7]]

/-- The working buffer of a GEN of length `n`: "`n` bytes with no initial value" (R38). The values are free
(`Config.bufByte`); the overwrite mixer never reads them (R37). -/
def freshBuffer (n : Nat) : List Byte := (List.range n).map Config.bufByte

/-- The working buffer of an ENC: `BUF[k] = d[k]` (R38, R123). -/
def dataBuffer (data : List Byte) : List Byte := data

end Sys2Proof.Machine
end

