-- ==== Sys2Proof/Machine/BlockGenerator.lean ====
section
/-! DEFINITION. The block generator (41_block_generator.md): INIT, CINC, SCTR, the production of a block, and the
meaning of LOAD. -/

namespace Sys2Proof.Machine

/-! ## Building the matrix (R90, R92, R11) -/

/-- The constant words for a 32-byte key, the little-endian words of "expand 32-byte k" (R92). -/
def sigma : Vector Word 4 := #v[0x61707865, 0x3320646e, 0x79622d32, 0x6b206574]

/-- The constant words for a 16-byte key, the little-endian words of "expand 16-byte k" (R92). -/
def tau : Vector Word 4 := #v[0x61707865, 0x3120646e, 0x79622d36, 0x6b206574]

/-- The matrix of constants `con`, key words `k0` and `k1`, nonce words `n` and counter `ctr0`, at the positions of R11. -/
def matrixOf (con k0 k1 : Vector Word 4) (n : Vector Word 2) (ctr0 : Dword) : StateMatrix :=
  #v[con[0],  k0[0], k0[1], k0[2],
     k0[3], con[1],  n[0],  n[1],
     ctr0.extractLsb' 0 32, ctr0.extractLsb' 32 32, con[2], k1[0],
     k1[1], k1[2], k1[3], con[3]]

/-- INIT (R90): a 32-byte key is split across the two positions, a 16-byte key stands in both. INIT has no meaning for
any other length, and LOAD asks for none (R91). -/
def initMatrix (key : List Byte) (nonce : Vector Byte 8) (ctr0 : Dword) : Option StateMatrix :=
  if h : key.length = 32 then
    some (matrixOf sigma (keyHalf key 0 (by omega)) (keyHalf key 1 (by omega)) (nonceWords nonce) ctr0)
  else if h : key.length = 16 then
    some (matrixOf tau (keyHalf key 0 (by omega)) (keyHalf key 0 (by omega)) (nonceWords nonce) ctr0)
  else none

/-! ## The counter (R94, R95) -/

/-- CINC on a matrix: the low word always; the high word only when the low word wrapped (R94). -/
def counterInc (x : StateMatrix) : StateMatrix :=
  let low := add32 x[8] 1
  let x' := x.set 8 low
  if lowWrapped low then x'.set 9 (add32 x[9] 1) else x'

/-- CINC (R94). -/
def State.cinc (s : State) : State := { s with x := counterInc s.x }

/-- SCTR: both counter words, and nothing else (R95). -/
def State.sctr (s : State) (value : Dword) : State := { s with x := withCounter s.x value }

/-! ## Producing a block (R93, R98) -/

/-- `KS(c)`: CORE20 of the matrix with counter `c` and the other fourteen words as they are (R98). -/
def keystreamBlock (x : StateMatrix) (c : Dword) : Block := core20 (withCounter x c)

/-- The part of PBLK before its destination: the block is computed from the counter before the increment, and the
counter is then advanced by one (R93). The mixer in front of the destination is R111's. -/
def State.produceBlock (s : State) : Block × State := (core20 s.x, s.cinc)

/-! ## LOAD (R91) -/

/-- LOAD: a key that is neither 16 nor 32 bytes long changes nothing (R141); else INIT, `OFF <- 64`, `READY <- 1`. `OVB`
is not written (R91, R171), and READY is not read (R144). -/
def execLoad (key : List Byte) (nonce : Vector Byte 8) (ctr0 : Dword) (s : State) :
    Host.Outcome State Fault Refusal :=
  match initMatrix key nonce ctr0 with
  | none => .next (s.raiseError (.invalidKeySize key.length))
  | some m => .next (State.respond { s with x := m, off := 64, ready := true } .ok)

end Sys2Proof.Machine
end

