-- ==== Sys2Proof/Machine/OverflowBuffer.lean ====
section
/-! DEFINITION. The overflow buffer (42_overflow_buffer.md): the mixer multiplexer, PBLK into a window, SERVE and REFILL. -/

namespace Sys2Proof.Machine

/-- MIX (R111): with the overwrite mixer the old byte is not read. -/
def mix : Mixer → Byte → Byte → Byte
  | .overwrite, _, ks => ks
  | .xor, old, ks => old ^^^ ks

/-- MIX at every byte of a destination. -/
def mixBytes (sel : Mixer) (dest ks : List Byte) : List Byte := List.zipWith (mix sel) dest ks

/-- PBLK with a window of BUF as its destination: the new window, and the state with the counter advanced (R93). -/
def State.pblk (s : State) (sel : Mixer) (window : List Byte) : List Byte × State :=
  let p := s.produceBlock
  (mixBytes sel window p.1.toList, p.2)

/-- SERVE (R112): the new destination, and the state with the cursor advanced. Outside `n <= 64 - OFF` it has no result
(R115, U1). -/
def State.serve (s : State) (sel : Mixer) (dest : List Byte) : Option (List Byte × State) :=
  if h : dest.length ≤ s.leftover then
    some (mixBytes sel dest (s.ovb.toList.drop s.off.val),
      { s with off := ⟨s.off.val + dest.length, by unfold State.leftover at h; omega⟩ })
  else none

/-- REFILL (R113): PBLK with all of OVB as its destination, always through the overwrite mixer, and `OFF <- 0`. -/
def State.refill (s : State) : State :=
  let p := s.produceBlock
  { p.2 with ovb := Vector.zipWith (mix .overwrite) s.ovb p.1, off := 0 }

end Sys2Proof.Machine
end

