-- ==== Sys2Proof/Machine/Facade.lean ====
section
/-! DEFINITION. The cipher façade (43_facade.md): MODIFY, and the meanings of GEN, ENC and SEEK. The three phases of
MODIFY take the bytes of BUF from its front; each function answers the bytes it has written and the state after. -/

namespace Sys2Proof.Machine

/-- Phase 2 of MODIFY, `q` times round its loop: whole blocks straight into BUF, 64 bytes at a time (R120). -/
def State.wholeBlocks (sel : Mixer) : Nat → List Byte → State → List Byte × State
  | 0, _, s => ([], s)
  | q + 1, buf, s =>
    let p := s.pblk sel (buf.take 64)
    let r := State.wholeBlocks sel q (buf.drop 64) p.2
    (p.1 ++ r.1, r.2)

/-- Phase 3 of MODIFY: a last partial block through the overflow buffer, if any byte is still wanted (R120). -/
def State.lastPart (s : State) (sel : Mixer) (buf : List Byte) : Option (List Byte × State) :=
  if buf.length = 0 then some ([], s) else s.refill.serve sel buf

/-- Phases 2 and 3 of MODIFY. The trip count of phase 2 is `(N - p) div 64`, fixed on entry (R120, R174). -/
def State.freshPart (s : State) (sel : Mixer) (buf : List Byte) : Option (List Byte × State) :=
  let q := buf.length / 64
  let p := State.wholeBlocks sel q (buf.take (64 * q)) s
  match p.2.lastPart sel (buf.drop (64 * q)) with
  | none => none
  | some (out, s') => some (p.1 ++ out, s')

/-- MODIFY (R120): leftover bytes first, and then, if more are wanted, phases 2 and 3. -/
def State.modify (s : State) (sel : Mixer) (buf : List Byte) : Option (List Byte × State) :=
  if s.hasLeftover then
    let t := min buf.length s.leftover
    match s.serve sel (buf.take t) with
    | none => none
    | some (out, s1) =>
      if t = buf.length then some (out, s1)
      else
        match s1.freshPart sel (buf.drop t) with
        | none => none
        | some (out', s2) => some (out ++ out', s2)
  else s.freshPart sel buf

/-- The end of GEN and of ENC: BUF goes out on DOUT in index order, then the response (R38, R122, R123). -/
def finishData (r : Option (List Byte × State)) : Host.Outcome State Fault Refusal :=
  match r with
  | none => .refused .serveBeyondLeftover
  | some (buf, s) => .next ((s.emit buf).respond .ok)

/-- GEN (R122): the next `LEN` keystream bytes. -/
def execGen (len : Word) (s : State) : Host.Outcome State Fault Refusal :=
  if s.ready then finishData (s.modify (mixSel (opcodeByte .gen)) (freshBuffer len.toNat))
  else .next (s.raiseError .notReady)

/-- ENC (R123): the data XORed with the next keystream bytes. -/
def execEnc (data : List Byte) (s : State) : Host.Outcome State Fault Refusal :=
  if s.ready then finishData (s.modify (mixSel (opcodeByte .enc)) (dataBuffer data))
  else .next (s.raiseError .notReady)

/-- SEEK (R124): the counter words, and nothing else; OFF and OVB are left as they are (R165). -/
def execSeek (value : Dword) (s : State) : Host.Outcome State Fault Refusal :=
  if s.ready then .next ((s.sctr value).respond .ok)
  else .next (s.raiseError .notReady)

end Sys2Proof.Machine
end

