-- ==== Sys2Proof/Machine/Dispatch.lean ====
section
/-! DEFINITION. exec: one arm per command, each one direct call of its meaning. -/

namespace Sys2Proof.Machine

def exec (i : Instr) (s : State) : Host.Outcome State Fault Refusal :=
  match i with
  | .load key nonce ctr0 => Sys2Proof.Machine.execLoad key nonce ctr0 s
  | .gen len => Sys2Proof.Machine.execGen len s
  | .enc data => Sys2Proof.Machine.execEnc data s
  | .seek value => Sys2Proof.Machine.execSeek value s

end Sys2Proof.Machine
end

