-- ==== Sys2Proof/Machine/Fetch.lean ====
section
/-! DEFINITION. What the block takes next from its ports: a whole frame, an illegal header, an assertion of RST, or
nothing yet (R55, R56, R160). -/

namespace Sys2Proof.Machine

/-- The CMD bytes that arrived before RST is next asserted. -/
def leadingBytes : List Input → List Byte
  | [] => []
  | .byte b :: rest => b :: leadingBytes rest
  | .rst :: _ => []

/-- What arrived from the next assertion of RST on. -/
def afterBytes : List Input → List Input
  | [] => []
  | .byte _ :: rest => afterBytes rest
  | .rst :: rest => .rst :: rest

/-- What the block takes from its ports, and what it leaves there. -/
inductive Fetched where
  /-- The whole frame of a command. -/
  | instr (i : Instr) (rest : List Input)
  /-- The four bytes of an illegal header (R56). -/
  | illegal (e : HeaderError) (rest : List Input)
  /-- RST, and with it the bytes of a frame only partly received (R160). -/
  | reset (rest : List Input)
  /-- Bytes are missing: nothing is taken (R55). -/
  | wait
  deriving DecidableEq, Repr

/-- A frame is acted on only when all its bytes have arrived (R55). Where RST is asserted first, the frame only partly
received is discarded and the next byte after reset is the first byte of a header (R160). -/
def fetch (input : List Input) : Fetched :=
  match decode (leadingBytes input) with
  | .instr i rest => .instr i (rest.map .byte ++ afterBytes input)
  | .illegal e rest => .illegal e (rest.map .byte ++ afterBytes input)
  | .incomplete =>
    match afterBytes input with
    | [] => .wait
    | _ :: rest => .reset rest

end Sys2Proof.Machine
end

