-- ==== Sys2Proof/Machine/Step.lean ====
section
/-! DEFINITION. One step: one command run to completion as one atomic transition (R3, R39), the answer to an illegal
header (R143), an assertion of RST (R160), or, while bytes are missing, nothing (R55). -/

namespace Sys2Proof.Machine

/-- One step of the block. Every outcome of the four is a next state, but for what `exec` may answer. -/
def step (s : State) : Host.Outcome State Fault Refusal :=
  match fetch s.input with
  | .instr i rest => exec i { s with input := rest }
  | .illegal e rest => .next (State.rejectHeader { s with input := rest } e)
  | .reset rest => .next (State.assertReset { s with input := rest })
  | .wait => .next s

/-- `s` with the frame of an opcode-table word in front of everything the host has sent, so that the next step takes
exactly it (notes/assumptions/5.md). -/
def State.withFetchWord (s : State) (nbits w : Nat) : State :=
  { s with input := (tableFrame nbits w).map .byte ++ s.input }

end Sys2Proof.Machine
end

