-- ==== Sys2Proof/Machine/Asm.lean ====
section
/-! DEFINITION. The textual command syntax and the pseudo-commands of the specification (R60, R61): what the host sends
for a line of text. No step of the block uses this file. -/

namespace Sys2Proof.Machine

/-- A line of the textual form: the five of R60 and the four pseudo-commands of R61. -/
inductive AsmLine where
  | load (key : List Byte) (nonce : Vector Byte 8) (ctr : Dword)
  | gen (n : Word)
  | enc (data : List Byte)
  | seek (value : Dword)
  | reset
  | dec (data : List Byte)
  | new (key : List Byte) (nonce : Vector Byte 8) (ctr : Dword)
  | keystream (n : Word)
  | genBig (n : Nat)
  deriving DecidableEq, Repr

/-- What the host does for a line: it sends a frame, or it asserts RST, which is no frame (R60). -/
inductive HostMove where
  | frame (i : Instr)
  | reset
  deriving DecidableEq, Repr

/-- GENBIG: `GEN (2^32 - 1)`, `n div (2^32 - 1)` times, then `GEN (n mod (2^32 - 1))` (R61, R169). -/
def genBigCommands (n : Nat) : List Instr :=
  List.replicate (n / 4294967295) (.gen 0xffffffff) ++ [.gen (BitVec.ofNat 32 (n % 4294967295))]

/-- The expansion of a line: DEC is ENC, NEW is LOAD, KEYSTREAM is GEN, and GENBIG a sequence of GEN (R61). -/
def AsmLine.expand : AsmLine → List HostMove
  | .load key nonce ctr => [.frame (.load key nonce ctr)]
  | .gen n => [.frame (.gen n)]
  | .enc data => [.frame (.enc data)]
  | .seek value => [.frame (.seek value)]
  | .reset => [.reset]
  | .dec data => [.frame (.enc data)]
  | .new key nonce ctr => [.frame (.load key nonce ctr)]
  | .keystream n => [.frame (.gen n)]
  | .genBig n => (genBigCommands n).map .frame

/-- What a move puts on the block's ports. -/
def HostMove.inputs : HostMove → List Input
  | .frame i => (encode i).map .byte
  | .reset => [.rst]

/-- What a program in the textual form puts on the block's ports, line by line. -/
def assemble (lines : List AsmLine) : List Input := lines.flatMap fun l => l.expand.flatMap HostMove.inputs

/-! ## Reading a line of text (R60) -/

/-- The value of a hexadecimal digit. -/
def hexDigit (c : Char) : Option Nat :=
  let n := c.toNat
  if 48 ≤ n ∧ n ≤ 57 then some (n - 48)
  else if 97 ≤ n ∧ n ≤ 102 then some (n - 87)
  else if 65 ≤ n ∧ n ≤ 70 then some (n - 55)
  else none

/-- `<hex>`: an even number of hexadecimal digits, two per byte, first byte first. -/
def parseHex : List Char → Option (List Byte)
  | [] => some []
  | [_] => none
  | c0 :: c1 :: rest =>
    match hexDigit c0, hexDigit c1, parseHex rest with
    | some h, some l, some bs => some (BitVec.ofNat 8 (16 * h + l) :: bs)
    | _, _, _ => none

/-- The number that digits of a base spell, after the value `acc` of those before them. -/
def parseDigits (base : Nat) : Nat → List Char → Option Nat
  | acc, [] => some acc
  | acc, c :: rest =>
    match hexDigit c with
    | none => none
    | some d => if d < base then parseDigits base (acc * base + d) rest else none

/-- An unsigned integer in decimal or `0x` hexadecimal. -/
def parseNat : List Char → Option Nat
  | [] => none
  | '0' :: 'x' :: [] => none
  | '0' :: 'x' :: c :: rest => parseDigits 16 0 (c :: rest)
  | cs => parseDigits 10 0 cs

/-- `<u32>`. -/
def parseU32 (cs : List Char) : Option Word :=
  match parseNat cs with
  | none => none
  | some n => if n < 2 ^ 32 then some (BitVec.ofNat 32 n) else none

/-- `<u64>`. -/
def parseU64 (cs : List Char) : Option Dword :=
  match parseNat cs with
  | none => none
  | some n => if n < 2 ^ 64 then some (BitVec.ofNat 64 n) else none

/-- The text after a key word such as `key=`. -/
def parseAfter (word cs : List Char) : Option (List Char) :=
  if word.isPrefixOf cs then some (cs.drop word.length) else none

/-- The words of a line: split at spaces, empty words dropped; `word` is the word being read. -/
def splitWords (word : List Char) : List Char → List (List Char)
  | [] => if word = [] then [] else [word]
  | c :: rest =>
    if c = ' ' then (if word = [] then splitWords [] rest else word :: splitWords [] rest)
    else splitWords (word ++ [c]) rest

/-- `key=<hex> nonce=<hex> ctr=<u64>`: at most 255 key bytes, and 8 nonce bytes. -/
def parseLoadOperands (k n c : List Char) : Option (List Byte × Vector Byte 8 × Dword) :=
  match parseAfter ['k', 'e', 'y', '='] k, parseAfter ['n', 'o', 'n', 'c', 'e', '='] n,
      parseAfter ['c', 't', 'r', '='] c with
  | some k', some n', some c' =>
    match parseHex k', parseHex n', parseU64 c' with
    | some key, some nonceBytes, some ctr =>
      match takeNonce nonceBytes with
      | some (nonce, []) => if key.length ≤ 255 then some (key, nonce, ctr) else none
      | _ => none
    | _, _, _ => none
  | _, _, _ => none

/-- The words of a line, without its comment, as a command. -/
def parseWords (ws : List (List Char)) : Option AsmLine :=
  match ws with
  | [['R', 'E', 'S', 'E', 'T']] => some .reset
  | [['E', 'N', 'C']] => some (.enc [])
  | [['D', 'E', 'C']] => some (.dec [])
  | [['G', 'E', 'N'], n] => (parseU32 n).map .gen
  | [['K', 'E', 'Y', 'S', 'T', 'R', 'E', 'A', 'M'], n] => (parseU32 n).map .keystream
  | [['G', 'E', 'N', 'B', 'I', 'G'], n] =>
    match parseNat n with
    | none => none
    | some v => if 2 ^ 32 ≤ v then some (.genBig v) else none
  | [['E', 'N', 'C'], d] => (parseHex d).map .enc
  | [['D', 'E', 'C'], d] => (parseHex d).map .dec
  | [['S', 'E', 'E', 'K'], v] => (parseU64 v).map .seek
  | [['L', 'O', 'A', 'D'], k, n, c] => (parseLoadOperands k n c).map fun p => .load p.1 p.2.1 p.2.2
  | [['N', 'E', 'W'], k, n, c] => (parseLoadOperands k n c).map fun p => .new p.1 p.2.1 p.2.2
  | _ => none

/-- One line of text, without its line end; `#` starts a comment. A line that is no command answers `none`. -/
def parseLine (cs : List Char) : Option AsmLine := parseWords (splitWords [] (cs.takeWhile (· ≠ '#')))

end Sys2Proof.Machine
end

