-- ==== Sys2Proof/Safety.lean ====
section
/-! DEFINITION. The terms claims are stated in: the invariant of the machine (R14, R90, R92, R114), the keystream and the
effect of a data command in closed form (R98, R126), runs of several commands (R39), and what of a state the ports can
ever show (R23, R114, R127). -/

namespace Sys2Proof

/-! ## Data commands -/

/-- The data of a data command, a GEN taken as an ENC of zero bytes (R111, R123); LOAD and SEEK have none. -/
def Instr.dataBytes : Instr → List Byte
  | .load _ _ _ => []
  | .gen len => List.replicate len.toNat 0
  | .enc data => data
  | .seek _ => []

/-- GEN and ENC. -/
def Instr.isData : Instr → Bool
  | .load _ _ _ => false
  | .gen _ => true
  | .enc _ => true
  | .seek _ => false

/-- The bytes of a frame some of which are missing: fewer bytes than a header has, or the first bytes, but not all, of a
command's frame (R55). -/
def PartialFrame (sent : List Byte) : Prop :=
  sent.length < 4 ∨ ∃ (i : Instr) (missing : List Byte), i.wellFormed = true ∧ missing ≠ [] ∧ encode i = sent ++ missing

/-- The four bytes of a header that is illegal (R56). -/
def IllegalHeader (h0 h1 h2 h3 : Byte) : Prop :=
  (h0 ≠ 0x01 ∧ h0 ≠ 0x02 ∧ h0 ≠ 0x03 ∧ h0 ≠ 0x04) ∨ (h2 ≠ 0 ∨ h3 ≠ 0) ∨
    ((h0 = 0x02 ∨ h0 = 0x03 ∨ h0 = 0x04) ∧ h1 ≠ 0)

end Sys2Proof

namespace Sys2Proof.Machine

/-! ## Safe outcomes and the invariant -/

/-- A step is safe if it answers a next state: the machine has no fault, and refuses nothing (R148). -/
def Outcome.Safe (o : Host.Outcome State Fault Refusal) : Prop := ∃ t, o = .next t

/-- The matrix is one that INIT writes, but for its counter: the constant words of one key length stand at their
positions, and with those of the 16-byte key the key words stand twice (R90, R92). -/
def LegalMatrix (x : StateMatrix) : Prop :=
  (x[0] = sigma[0] ∧ x[5] = sigma[1] ∧ x[10] = sigma[2] ∧ x[15] = sigma[3]) ∨
  (x[0] = tau[0] ∧ x[5] = tau[1] ∧ x[10] = tau[2] ∧ x[15] = tau[3] ∧
    x[11] = x[1] ∧ x[12] = x[2] ∧ x[13] = x[3] ∧ x[14] = x[4])

/-- What holds of the block between commands: the cursor is never 0 (R114); with no instance the buffer is empty
(R17, R22); an instance has a legal matrix (R14, R90, R92); and where leftover bytes exist, `OVB` is a block of the
keystream of the present key and nonce (R114). -/
structure State.Inv (s : State) : Prop where
  cursor : s.off ≠ 0
  noInstance : s.ready = false → s.off = 64
  matrix : s.ready = true → LegalMatrix s.x
  leftoverBlock : s.off.val < 64 → ∃ c : Dword, s.ovb = keystreamBlock s.x c

/-! ## The keystream (R98, R126) -/

/-- Byte `k` of the keystream from the counter of `x`: byte `k mod 64` of `KS(CTR +64 (k div 64))` (R98). -/
def freshByte (x : StateMatrix) (k : Nat) : Byte :=
  (keystreamBlock x (counterOf x + BitVec.ofNat 64 (k / 64)))[k % 64]'(Nat.mod_lt k (by decide))

/-- `s[k]` of R126: the byte a data command that starts in state `s` mixes into `BUF[k]`. The leftover bytes come
first, then the keystream from `CTR`. -/
def State.streamByte (s : State) (k : Nat) : Byte :=
  if h : k < s.leftover then s.ovb[s.off.val + k]'(by unfold State.leftover at h; omega)
  else freshByte s.x (k - s.leftover)

/-- The bytes `s[0..n-1]` of R126. -/
def State.stream (s : State) (n : Nat) : List Byte := (List.range n).map s.streamByte

/-- `X`, `OVB` and `OFF` after a data command of length `n`, in closed form (R126). -/
def State.afterData (s : State) (n : Nat) : State :=
  if h : n ≤ s.leftover then { s with off := ⟨s.off.val + n, by unfold State.leftover at h; omega⟩ }
  else
    let q := (n - s.leftover) / 64
    let r := (n - s.leftover) % 64
    if 0 < r then
      { s with
        x := withCounter s.x (s.ctr + BitVec.ofNat 64 q + 1)
        off := ⟨r, Nat.lt_trans (Nat.mod_lt _ (by decide)) (by decide)⟩
        ovb := keystreamBlock s.x (s.ctr + BitVec.ofNat 64 q) }
    else
      { s with
        x := withCounter s.x (s.ctr + BitVec.ofNat 64 q)
        off := 64 }

/-! ## Runs of several commands (R39) -/

/-- Commands one after the other, each to completion. -/
def execAll : List Instr → State → Host.Outcome State Fault Refusal
  | [], s => .next s
  | i :: is, s =>
    match exec i s with
    | .next t => execAll is t
    | .fault r => .fault r
    | .refused r => .refused r

/-- The commands of a list that do not fail in a block where an instance exists or not as `ready` says: a LOAD with a
key of 16 or 32 bytes, and after it every command (R141, R142, R148). -/
def succeeding : Bool → List Instr → List Instr
  | _, [] => []
  | ready, .load key nonce ctr0 :: is =>
    if key.length = 16 ∨ key.length = 32 then .load key nonce ctr0 :: succeeding true is else succeeding ready is
  | true, .gen len :: is => .gen len :: succeeding true is
  | true, .enc data :: is => .enc data :: succeeding true is
  | true, .seek value :: is => .seek value :: succeeding true is
  | false, .gen _ :: is => succeeding false is
  | false, .enc _ :: is => succeeding false is
  | false, .seek _ :: is => succeeding false is

/-! ## What the host sends (R50, R143, R147) -/

/-- One thing the host does that the block takes in one step, as in program P4: it sends a whole frame, or a header that
is illegal, or it asserts RST. -/
inductive Sent where
  | frame (i : Instr)
  | badHeader (h0 h1 h2 h3 : Byte)
  | reset
  deriving DecidableEq, Repr

/-- The frame is one that can be sent, and the header is illegal (R52, R56). -/
def Sent.WellFormed : Sent → Prop
  | .frame i => i.wellFormed = true
  | .badHeader h0 h1 h2 h3 => IllegalHeader h0 h1 h2 h3
  | .reset => True

/-- What goes on the ports. -/
def Sent.inputs : Sent → List Input
  | .frame i => (encode i).map .byte
  | .badHeader h0 h1 h2 h3 => [.byte h0, .byte h1, .byte h2, .byte h3]
  | .reset => [.rst]

/-- Whether a command succeeds in a block where an instance exists or not as `ready` says (R141, R142, R148). -/
def Sent.succeeds (ready : Bool) : Instr → Bool
  | .load key _ _ => decide (key.length = 16 ∨ key.length = 32)
  | .gen _ => ready
  | .enc _ => ready
  | .seek _ => ready

/-- What the host sends, without the failing frames and the illegal headers. After a command that succeeds an instance
exists, after RST none does (R17, R160). -/
def succeedingSent : Bool → List Sent → List Sent
  | _, [] => []
  | ready, .frame i :: rest =>
    if Sent.succeeds ready i then .frame i :: succeedingSent true rest else succeedingSent ready rest
  | ready, .badHeader _ _ _ _ :: rest => succeedingSent ready rest
  | _, .reset :: rest => .reset :: succeedingSent false rest

/-! ## What the ports can show (R23, R114, R127) -/

/-- Two states that agree in all but the parts that "hold no value" or are behind the cursor: the register file of a
block with no instance, and the bytes of OVB before `OFF`. -/
structure State.Agree (s t : State) : Prop where
  ready : s.ready = t.ready
  off : s.off = t.off
  input : s.input = t.input
  output : s.output = t.output
  matrix : s.ready = true → s.x = t.x
  leftover : ∀ (j : Nat) (h : j < 64), s.off.val ≤ j → s.ovb[j] = t.ovb[j]

/-- Two outcomes that agree: both next states, and these agree. -/
def OutcomesAgree (o p : Host.Outcome State Fault Refusal) : Prop :=
  ∃ s t, o = .next s ∧ p = .next t ∧ s.Agree t

end Sys2Proof.Machine
end

