-- ==== Sys2Proof/Certificates/Slice0/Obligations.lean ====
section
/-! DEFINITION. The statements for the provers. Each docstring names the rule of the specification it formalises. -/

open Sys2Proof Sys2Proof.Machine

/-! ## Encoding -/

/-- The ten worked encodings of 30_encoding.md section 8, in its order: seven frames decode to the commands they stand
for, the LOAD with a 15-byte key among them (here the key `00 01 … 0e`), and three headers are rejected by name. -/
def Obligations.WorkedFramesDecode : Prop :=
  decode ([0x01, 0x10, 0, 0] ++ List.replicate 32 0) =
    .instr (.load (List.replicate 16 0) (Vector.replicate 8 0) 0) [] ∧
  decode ([0x01, 0x20, 0, 0,
      0x00, 0x01, 0x02, 0x03, 0x04, 0x05, 0x06, 0x07, 0x08, 0x09, 0x0a, 0x0b, 0x0c, 0x0d, 0x0e, 0x0f,
      0x10, 0x11, 0x12, 0x13, 0x14, 0x15, 0x16, 0x17, 0x18, 0x19, 0x1a, 0x1b, 0x1c, 0x1d, 0x1e, 0x1f] ++
      [0xf0, 0xf1, 0xf2, 0xf3, 0xf4, 0xf5, 0xf6, 0xf7, 0xef, 0xcd, 0xab, 0x89, 0x67, 0x45, 0x23, 0x01]) =
    .instr (.load
      [0x00, 0x01, 0x02, 0x03, 0x04, 0x05, 0x06, 0x07, 0x08, 0x09, 0x0a, 0x0b, 0x0c, 0x0d, 0x0e, 0x0f,
       0x10, 0x11, 0x12, 0x13, 0x14, 0x15, 0x16, 0x17, 0x18, 0x19, 0x1a, 0x1b, 0x1c, 0x1d, 0x1e, 0x1f]
      #v[0xf0, 0xf1, 0xf2, 0xf3, 0xf4, 0xf5, 0xf6, 0xf7] 0x0123456789abcdef) [] ∧
  decode [0x02, 0, 0, 0, 0x40, 0, 0, 0] = .instr (.gen 64) [] ∧
  decode [0x02, 0, 0, 0, 0, 0, 0, 0] = .instr (.gen 0) [] ∧
  decode [0x03, 0, 0, 0, 0x03, 0, 0, 0, 0x61, 0x62, 0x63] = .instr (.enc [0x61, 0x62, 0x63]) [] ∧
  decode [0x04, 0, 0, 0, 0, 0, 0, 0, 0x01, 0, 0, 0] = .instr (.seek 0x100000000) [] ∧
  decode ([0x01, 0x0f, 0, 0, 0x00, 0x01, 0x02, 0x03, 0x04, 0x05, 0x06, 0x07, 0x08, 0x09, 0x0a, 0x0b, 0x0c, 0x0d, 0x0e] ++
      [0xf0, 0xf1, 0xf2, 0xf3, 0xf4, 0xf5, 0xf6, 0xf7, 0x09, 0, 0, 0, 0, 0, 0, 0]) =
    .instr (.load
      [0x00, 0x01, 0x02, 0x03, 0x04, 0x05, 0x06, 0x07, 0x08, 0x09, 0x0a, 0x0b, 0x0c, 0x0d, 0x0e]
      #v[0xf0, 0xf1, 0xf2, 0xf3, 0xf4, 0xf5, 0xf6, 0xf7] 9) [] ∧
  decode [0x05, 0, 0, 0] = .illegal .reservedOpcode [] ∧
  decode [0x02, 0x01, 0, 0] = .illegal .argumentField [] ∧
  decode [0x04, 0, 0, 0x80] = .illegal .reservedField []

/-- Decode of encode: every well-formed command, with every operand the encoding admits, is read back from its frame,
whatever follows it (R51, R52, R53, R55, R57). -/
def Obligations.DecodeReadsBackEveryFrame : Prop :=
  ∀ (i : Instr) (rest : List Byte), i.wellFormed = true → decode (encode i ++ rest) = .instr i rest

/-- Encode of decode: what the decoder reads as a command is that command's frame, byte for byte, so no two frames
mean one command and no frame means two. -/
def Obligations.DecodedBytesAreTheFrame : Prop :=
  ∀ (bs : List Byte) (i : Instr) (rest : List Byte),
    decode bs = .instr i rest → i.wellFormed = true ∧ bs = encode i ++ rest

/-- R56: a header is illegal exactly when its opcode is reserved, `RSVD` is not 0, or `ARG` is not 0 on GEN, ENC or
SEEK; so every `KLEN` is legal on a LOAD (R57). -/
def Obligations.HeaderIllegalExactlyWhen : Prop :=
  ∀ (h0 h1 h2 h3 : Byte) (p : List Byte),
    (∃ e rest, decode (h0 :: h1 :: h2 :: h3 :: p) = .illegal e rest) ↔
      (h0 ≠ 0x01 ∧ h0 ≠ 0x02 ∧ h0 ≠ 0x03 ∧ h0 ≠ 0x04) ∨ (h2 ≠ 0 ∨ h3 ≠ 0) ∨
        ((h0 = 0x02 ∨ h0 = 0x03 ∨ h0 = 0x04) ∧ h1 ≠ 0)

/-- R58: the four response codes. -/
def Obligations.ResponseCodeValues : Prop :=
  Response.ok.code = 0x00 ∧ Response.invalidKeySize.code = 0x01 ∧ Response.notReady.code = 0x02 ∧
    Response.illegalCmd.code = 0x03 ∧ ∀ r s : Response, r.code = s.code → r = s

/-! ## The step -/

/-- A step runs the decoded command: where the CMD bytes that have arrived begin with a well-formed command's frame,
the step takes exactly that frame and is `exec` of the command. How what the host has sent stands in the state is the
model's choice (notes/assumptions/2.md). -/
def Obligations.StepRunsDecodedFrame : Prop :=
  ∀ (s : State) (i : Instr) (rest : List Byte), decode (leadingBytes s.input) = .instr i rest →
    step s = exec i { s with input := rest.map .byte ++ afterBytes s.input }

/-- The same, said of the frame the encoder writes: whatever the host has sent after it, RST included. That a whole frame
that stands before an RST is executed first is the model's choice (notes/assumptions/2.md). -/
def Obligations.StepRunsEncodedFrame : Prop :=
  ∀ (s : State) (i : Instr) (rest : List Input), i.wellFormed = true →
    step { s with input := (encode i).map .byte ++ rest } = exec i { s with input := rest }

/-- An opcode-table word placed for fetching is the command the next step runs. The placing is the model's
(notes/assumptions/5.md). That it runs before an RST that waits behind it is too (notes/assumptions/2.md). -/
def Obligations.PlacedWordRunsNext : Prop :=
  ∀ (s : State) (nbits w : Nat) (i : Instr), decodeTableWord nbits w = some i →
    step (s.withFetchWord nbits w) = exec i s

/-- R143: an illegal header is answered `ILLEGAL_CMD`, code 0x03, with no state change and no DOUT byte; only its four
bytes are consumed, and what follows is read as the next header. It is judged first, whatever READY is (R144). That a
whole header that stands before an RST is answered first is the model's choice (notes/assumptions/2.md). -/
def Obligations.IllegalHeaderAnswered : Prop :=
  ∀ (s : State) (h0 h1 h2 h3 : Byte) (rest : List Input),
    s.input = .byte h0 :: .byte h1 :: .byte h2 :: .byte h3 :: rest →
    ((h0 ≠ 0x01 ∧ h0 ≠ 0x02 ∧ h0 ≠ 0x03 ∧ h0 ≠ 0x04) ∨ (h2 ≠ 0 ∨ h3 ≠ 0) ∨
        ((h0 = 0x02 ∨ h0 = 0x03 ∨ h0 = 0x04) ∧ h1 ≠ 0)) →
    step s = .next { s with input := rest, output := s.output ++ [.rsp .illegalCmd] }

/-- R55: while bytes of a frame are missing the block waits and changes nothing. The bytes that have arrived are fewer
than a header, or they are the first bytes, but not all, of a command's frame. That a step then answers the same state
is notes/assumptions/11.md. -/
def Obligations.IncompleteFrameWaits : Prop :=
  ∀ (s : State) (sent : List Byte), PartialFrame sent → s.input = sent.map .byte → step s = .next s

/-- R160: RST empties the buffer and clears READY whatever the state, a frame only partly received is discarded, and
the next byte after reset is the next byte taken. Where RST stands among the bytes is the model's choice
(notes/assumptions/2.md). -/
def Obligations.ResetDropsPartialFrame : Prop :=
  ∀ (s : State) (sent : List Byte) (rest : List Input), PartialFrame sent → s.input = sent.map .byte ++ .rst :: rest →
    ∃ t, step s = .next t ∧ t.ready = false ∧ t.off = 64 ∧ t.input = rest ∧ t.output = s.output

/-- R22: after reset no instance exists and the overflow buffer is empty. -/
def Obligations.ResetLeavesNoInstance : Prop :=
  State.reset.ready = false ∧ State.reset.off = 64 ∧ ¬ State.reset.hasLeftover

/-- R148, R174: every step answers a next state, and so does every command in every state; SERVE is never asked for
more bytes than are left (R115). The specification marks R174 as derived. -/
def Obligations.StepNeverStops : Prop :=
  (∀ s : State, Outcome.Safe (step s)) ∧ ∀ (i : Instr) (s : State), Outcome.Safe (exec i s)

/-- R39: the effect of a sequence of frames, whatever is sent after them, is the composition of the commands'
transitions in order. That frames run before an RST that stands behind them is the model's choice
(notes/assumptions/2.md). -/
def Obligations.FramesComposeInOrder : Prop :=
  ∀ (is : List Instr) (s : State) (rest : List Input), (∀ i ∈ is, i.wellFormed = true) →
    core.run is.length { s with input := (is.flatMap encode).map .byte ++ rest } =
      execAll is { s with input := rest }

/-! ## The mixing datapath -/

/-- R71: result bit `(i + n) mod 32` of ROTL32 is bit `i` of `v`. -/
def Obligations.RotateMovesEachBit : Prop :=
  ∀ (v : Word) (n i : Nat), 1 ≤ n → n ≤ 31 → i < 32 →
    (rotl32 v n).getLsbD ((i + n) % 32) = v.getLsbD i

/-- R73: the four lines of QR, each with the values the lines before it gave, the rotation being the library's
`BitVec.rotateLeft`; and zero is a fixed point. -/
def Obligations.QuarterRoundFollowsFourLines : Prop :=
  (∀ a b c d : Word,
    let q := quarterRound a b c d
    q.b = b ^^^ (a + d).rotateLeft 7 ∧
    q.c = c ^^^ (q.b + a).rotateLeft 9 ∧
    q.d = d ^^^ (q.c + q.b).rotateLeft 13 ∧
    q.a = a ^^^ (q.d + q.c).rotateLeft 18) ∧
  quarterRound 0 0 0 0 = ⟨0, 0, 0, 0⟩

/-- R74, R75: column `j` and row `j` each enter QR from the diagonal word on, the column going down and the row going
right, and each wraps round; so the four of a round read and write every word once. The order is the one the rules
take "from general knowledge, not in source" (notes/assumptions/8.md). -/
def Obligations.RoundsStartAtTheDiagonal : Prop :=
  ∀ (x : StateMatrix) (j : Nat) (h : j < 4),
    quarterRound (x[5 * j]'(by omega)) (x[(5 * j + 4) % 16]'(by omega)) (x[(5 * j + 8) % 16]'(by omega))
        (x[(5 * j + 12) % 16]'(by omega)) =
      ⟨(columnRound x)[5 * j]'(by omega), (columnRound x)[(5 * j + 4) % 16]'(by omega),
        (columnRound x)[(5 * j + 8) % 16]'(by omega), (columnRound x)[(5 * j + 12) % 16]'(by omega)⟩ ∧
    quarterRound (x[4 * j + j]'(by omega)) (x[4 * j + (j + 1) % 4]'(by omega)) (x[4 * j + (j + 2) % 4]'(by omega))
        (x[4 * j + (j + 3) % 4]'(by omega)) =
      ⟨(rowRound x)[4 * j + j]'(by omega), (rowRound x)[4 * j + (j + 1) % 4]'(by omega),
        (rowRound x)[4 * j + (j + 2) % 4]'(by omega), (rowRound x)[4 * j + (j + 3) % 4]'(by omega)⟩

/-- R75: RROUND is CROUND applied to the transposed matrix, transposed back, with `T(i) = 4·(i mod 4) + (i div 4)`.
The specification marks this sentence of R75 as derived. -/
def Obligations.RowRoundIsTransposedColumnRound : Prop :=
  ∀ (y yT : StateMatrix),
    (∀ (i : Nat) (h : i < 16) (hT : 4 * (i % 4) + i / 4 < 16), yT[i] = y[4 * (i % 4) + i / 4]) →
    ∀ (i : Nat) (h : i < 16) (hT : 4 * (i % 4) + i / 4 < 16),
      (rowRound y)[4 * (i % 4) + i / 4] = (columnRound yT)[i]

/-- R97 and R74: a change of `X[8]` alone changes no word of CROUND outside column 0, and a change of `X[9]` alone
none outside column 1. The specification marks the table of R97 as derived. -/
def Obligations.ColumnRoundStaleWords : Prop :=
  ∀ (x : StateMatrix) (v : Word) (j : Nat) (h : j < 16),
    (j % 4 ≠ 0 → (columnRound (x.set 8 v))[j] = (columnRound x)[j]) ∧
    (j % 4 ≠ 1 → (columnRound (x.set 9 v))[j] = (columnRound x)[j])

/-- R21, R97: CORE20 started from a cache that equals CROUND of the present matrix gives CORE20. -/
def Obligations.CacheIsUnobservable : Prop :=
  ∀ (cache x : StateMatrix), (∀ (i : Nat) (h : i < 16), cache[i] = (columnRound x)[i]) →
    core20FromCache cache x = core20 x

/-- R31: byte `4i + j` of a block is bits `[8j+7 : 8j]` of output word `i`, and `le32(bytes_le32(w)) = w`. -/
def Obligations.BlockBytesAreLittleEndian : Prop :=
  (∀ (x : StateMatrix) (i j b : Nat) (hi : i < 16) (hj : j < 4), b < 8 →
    ((core20 x)[4 * i + j]).getLsbD b = ((coreWords x)[i]).getLsbD (8 * j + b)) ∧
  (∀ (x : StateMatrix) (i : Nat) (hi : i < 16), (coreWords x)[i] = (doubleRounds 10 x)[i] + x[i]) ∧
  ∀ (w : Word) (b0 b1 b2 b3 : Byte), bytesLe32 w = [b0, b1, b2, b3] → le32 b0 b1 b2 b3 = w

/-! ## The block generator -/

/-- R92: the constant words are the little-endian words of the 16 characters of the named strings. The specification
marks the cutting of the strings into words "from general knowledge, not in source" (notes/assumptions/8.md). -/
def Obligations.ConstantWordsSpellTheStrings : Prop :=
  (sigma.toList.flatMap bytesLe32).map (fun b => Char.ofNat b.toNat) =
    ['e', 'x', 'p', 'a', 'n', 'd', ' ', '3', '2', '-', 'b', 'y', 't', 'e', ' ', 'k'] ∧
  (tau.toList.flatMap bytesLe32).map (fun b => Char.ofNat b.toNat) =
    ['e', 'x', 'p', 'a', 'n', 'd', ' ', '1', '6', '-', 'b', 'y', 't', 'e', ' ', 'k']

/-- R90, R91, R92: LOAD with a key of 16 or 32 bytes writes all sixteen words of `X`, `OFF <- 64` and `READY <- 1`,
answers OK, and writes nothing else, whether or not an instance exists; with any other key length it answers
`INVALID_KEY_SIZE` and changes nothing. The specification marks the word positions and the byte order of key and nonce
"from general knowledge, not in source" (notes/assumptions/8.md). -/
def Obligations.LoadBuildsInstanceOrNothing : Prop :=
  ∀ (key : List Byte) (nonce : Vector Byte 8) (ctr0 : Dword) (s : State),
    let k0 : Nat → Byte := fun i => key.getD i 0
    let k1 : Nat → Byte := fun i => if key.length = 32 then key.getD (16 + i) 0 else key.getD i 0
    (key.length = 16 ∨ key.length = 32 →
      exec (.load key nonce ctr0) s = .next
        { x := #v[0x61707865,
                  le32 (k0 0) (k0 1) (k0 2) (k0 3),
                  le32 (k0 4) (k0 5) (k0 6) (k0 7),
                  le32 (k0 8) (k0 9) (k0 10) (k0 11),
                  le32 (k0 12) (k0 13) (k0 14) (k0 15),
                  if key.length = 32 then 0x3320646e else 0x3120646e,
                  le32 nonce[0] nonce[1] nonce[2] nonce[3],
                  le32 nonce[4] nonce[5] nonce[6] nonce[7],
                  ctr0.setWidth 32,
                  (ctr0 >>> 32).setWidth 32,
                  if key.length = 32 then 0x79622d32 else 0x79622d36,
                  le32 (k1 0) (k1 1) (k1 2) (k1 3),
                  le32 (k1 4) (k1 5) (k1 6) (k1 7),
                  le32 (k1 8) (k1 9) (k1 10) (k1 11),
                  le32 (k1 12) (k1 13) (k1 14) (k1 15),
                  0x6b206574]
          ovb := s.ovb
          off := 64
          ready := true
          input := s.input
          output := s.output ++ [.rsp .ok] }) ∧
    (key.length ≠ 16 → key.length ≠ 32 →
      exec (.load key nonce ctr0) s = .next { s with output := s.output ++ [.rsp .invalidKeySize] })

/-- R94: CINC adds one to the low word, and to the high word only when the new low word is zero; it writes no other
word. -/
def Obligations.CounterIncrementCarries : Prop :=
  ∀ x : StateMatrix,
    (counterInc x)[8] = x[8] + 1 ∧
    (counterInc x)[9] = (if x[8] + 1 = 0 then x[9] + 1 else x[9]) ∧
    ∀ (j : Nat) (h : j < 16), j ≠ 8 → j ≠ 9 → (counterInc x)[j] = x[j]

/-- The effect of CINC on the view CTR is `CTR <- CTR +64 1`, as a number modulo `2^64`; so it wraps silently (R12,
and the inference R94 draws from it). -/
def Obligations.CounterIncrementIsModular : Prop :=
  ∀ x : StateMatrix, (counterOf (counterInc x)).toNat = (x[9].toNat * 2 ^ 32 + x[8].toNat + 1) % 2 ^ 64

/-- R96: after `SCTR(c)` the register file is the one INIT writes from the same key, nonce and `ctr0 = c`. The
specification marks R96 as derived. -/
def Obligations.SeekEqualsFreshInit : Prop :=
  ∀ (key : List Byte) (nonce : Vector Byte 8) (c0 c : Dword) (s : State),
    initMatrix key nonce c0 = some s.x → initMatrix key nonce c = some (s.sctr c).x ∧ (s.sctr c).ctr = c

/-- R93, R98: PBLK started with `CTR = c` hands out `KS(c)` and leaves `CTR = c +64 1`, and `KS` does not depend on
the counter the register file holds. The specification marks R98 as derived. -/
def Obligations.BlockIsKeystreamOfCounter : Prop :=
  ∀ (s : State) (sel : Mixer) (window : List Byte) (v c : Dword),
    s.pblk sel window =
      (List.zipWith (mix sel) window (keystreamBlock s.x s.ctr).toList,
        { s with x := withCounter s.x (s.ctr + 1) }) ∧
    keystreamBlock (withCounter s.x v) c = keystreamBlock s.x c

/-- R98, R166: the keystream repeats after `2^70` bytes, because the counter wraps: GEN and ENC commands of that total
length leave `X` and `OFF` as they were; and if the leftover bytes at the start, where there are any, are those of the
block before `CTR` (R114: no SEEK since the REFILL), these are as they were too, and data encrypted afterwards comes out
as it would have before. The specification marks R98 and R114 as derived. -/
def Obligations.KeystreamRepeatsAfterWrap : Prop :=
  ∀ (cmds : List Instr) (s : State), s.ready = true → s.off ≠ 0 → (∀ i ∈ cmds, i.isData = true) →
    (cmds.flatMap Instr.dataBytes).length = 2 ^ 70 →
    ∃ t, execAll cmds s = .next t ∧ t.x = s.x ∧ t.off = s.off ∧
      ((s.off.val < 64 → s.ovb = keystreamBlock s.x (s.ctr - 1)) →
        (∀ (j : Nat) (h : j < 64), s.off.val ≤ j → t.ovb[j] = s.ovb[j]) ∧
        ∀ data : List Byte, ∃ e s' t', exec (.enc data) s = .next s' ∧ s'.dout = s.dout ++ e ∧
          exec (.enc data) t = .next t' ∧ t'.dout = t.dout ++ e)

/-! ## The overflow buffer -/

/-- R110: HASL is true exactly when `OFF < 64`, and the number of leftover bytes is `64 - OFF`. -/
def Obligations.LeftoverPredicate : Prop :=
  ∀ s : State, (s.hasLeftover = true ↔ s.off.val < 64) ∧ s.leftover + s.off.val = 64

/-- R111: the overwrite mixer gives the keystream byte, the XOR mixer the exclusive or, which undoes itself; GEN
selects the first and ENC the second, by bit 0 of the opcode (R54). -/
def Obligations.MixerBytes : Prop :=
  (∀ old ks : Byte, mix .overwrite old ks = ks ∧ mix .xor old ks = old ^^^ ks ∧ mix .xor (mix .xor old ks) ks = old ∧
    mix .xor 0 ks = ks) ∧
  mixSel (opcodeByte .gen) = .overwrite ∧ mixSel (opcodeByte .enc) = .xor ∧
  ∀ opc : Byte, mixSel opc = .xor ↔ opc.getLsbD 0 = true

/-- R112 and R115: SERVE has a result exactly when `n <= 64 - OFF`; byte `i` of the destination becomes `MIX(old,
OVB[OFF + i])`, `OFF` advances by `n`, and nothing else changes. -/
def Obligations.ServeHandsOutLeftover : Prop :=
  ∀ (s : State) (sel : Mixer) (dest : List Byte),
    (dest.length ≤ s.leftover → ∃ out t, s.serve sel dest = some (out, t) ∧ out.length = dest.length ∧
      (∀ (i : Nat) (h : i < dest.length) (h' : i < out.length) (ho : s.off.val + i < 64),
        out[i] = mix sel dest[i] s.ovb[s.off.val + i]) ∧
      t.off.val = s.off.val + dest.length ∧ t = { s with off := t.off }) ∧
    (s.leftover < dest.length → s.serve sel dest = none)

/-- R113: REFILL makes `OVB` the raw block `KS(CTR)`, advances the counter and puts the cursor at 0. -/
def Obligations.RefillStoresRawBlock : Prop :=
  ∀ s : State, s.refill = { s with
    x := withCounter s.x (s.ctr + 1), ovb := keystreamBlock s.x s.ctr, off := 0 }

/-! ## The façade -/

/-- R122 with R126: where an instance exists, GEN emits the next `LEN` bytes of the stream, answers OK, and leaves
`X`, `OVB` and `OFF` as the closed form says. The specification marks R126 as derived; no value of the free bytes of
`BUF` matters (notes/assumptions/4.md). -/
def Obligations.GenEmitsKeystream : Prop :=
  ∀ (len : Word) (s : State), s.ready = true →
    exec (.gen len) s = .next { s.afterData len.toNat with
      output := s.output ++ (s.stream len.toNat).map .dout ++ [.rsp .ok] }

/-- R123 with R126: where an instance exists, ENC emits `d[k] ^ s[k]`, answers OK, and leaves the state GEN of the
same length leaves. The specification marks R126 as derived. -/
def Obligations.EncEmitsDataXorKeystream : Prop :=
  ∀ (data : List Byte) (s : State), s.ready = true →
    exec (.enc data) s = .next { s.afterData data.length with
      output := s.output ++ (List.zipWith (· ^^^ ·) data (s.stream data.length)).map .dout ++ [.rsp .ok] }

/-- R124: where an instance exists, SEEK writes `X[8]` and `X[9]` and nothing else, and answers OK; where none exists
it answers `NOT_READY` and changes nothing. -/
def Obligations.SeekWritesCounterOnly : Prop :=
  ∀ (value : Dword) (s : State),
    (s.ready = true → ∃ m : StateMatrix,
      exec (.seek value) s = .next { s with x := m, output := s.output ++ [.rsp .ok] } ∧
      m[8] = value.setWidth 32 ∧ m[9] = (value >>> 32).setWidth 32 ∧
      ∀ (j : Nat) (h : j < 16), j ≠ 8 → j ≠ 9 → m[j] = s.x[j]) ∧
    (s.ready = false → exec (.seek value) s = .next { s with output := s.output ++ [.rsp .notReady] })

/-- R142: while `READY = 0`, GEN, ENC and SEEK are answered `NOT_READY` and change nothing; the whole frame, the data
of an ENC included, is consumed and dropped. That a whole frame that stands before an RST is answered first is the
model's choice (notes/assumptions/2.md). -/
def Obligations.NotReadyChangesNothing : Prop :=
  ∀ s : State, s.ready = false →
    (∀ len, exec (.gen len) s = .next { s with output := s.output ++ [.rsp .notReady] }) ∧
    (∀ data, exec (.enc data) s = .next { s with output := s.output ++ [.rsp .notReady] }) ∧
    (∀ value, exec (.seek value) s = .next { s with output := s.output ++ [.rsp .notReady] }) ∧
    ∀ (i : Instr) (rest : List Input), i.wellFormed = true → i.opcode ≠ .load →
      s.input = (encode i).map .byte ++ rest →
      step s = .next { s with input := rest, output := s.output ++ [.rsp .notReady] }

/-- R141: a LOAD whose key has a length other than 16 and 32 is answered `INVALID_KEY_SIZE` after its whole frame has
been consumed; nothing else changes, so an instance that exists is kept and none comes to exist. That a whole frame
that stands before an RST is answered first is the model's choice (notes/assumptions/2.md). -/
def Obligations.WrongKeyLengthRefused : Prop :=
  ∀ (key : List Byte) (nonce : Vector Byte 8) (ctr0 : Dword) (s : State) (rest : List Input),
    key.length ≤ 255 → key.length ≠ 16 → key.length ≠ 32 →
    s.input = (encode (.load key nonce ctr0)).map .byte ++ rest →
    step s = .next { s with input := rest, output := s.output ++ [.rsp .invalidKeySize] }

/-- R36, R124: the last of several SEEK counts, and a SEEK to the counter the register file holds changes nothing. -/
def Obligations.LastSeekCounts : Prop :=
  ∀ s : State, s.ready = true →
    (∀ a b : Dword, ∃ t u, execAll [.seek a, .seek b] s = .next t ∧ exec (.seek b) s = .next u ∧
      t = { u with output := u.output ++ [.rsp .ok] }) ∧
    exec (.seek s.ctr) s = .next { s with output := s.output ++ [.rsp .ok] }

/-- R126, its arithmetic: the counter advances by one for each block produced, `ceil((N - L) / 64)` of them where `N >
L` and none where `N <= L`, and `OFF mod 64` advances by `N` (R165). The specification marks R126 as derived. -/
def Obligations.BlocksProducedAndCursor : Prop :=
  ∀ (s : State) (n : Nat),
    (s.afterData n).ctr = s.ctr + BitVec.ofNat 64 ((n - s.leftover + 63) / 64) ∧
    (s.afterData n).off.val % 64 = (s.off.val + n) % 64 ∧
    ∀ (j : Nat) (h : j < 16), j ≠ 8 → j ≠ 9 → (s.afterData n).x[j] = s.x[j]

/-- R37: the overwrite mixer never reads its destination; with the XOR mixer the new byte `k` depends only on the old
byte `k` and on one keystream byte, the same whatever the buffer holds. -/
def Obligations.MixersReadTheirOwnByteOnly : Prop :=
  ∀ (s : State) (n : Nat), ∃ (ks : List Byte) (t : State), ks.length = n ∧
    ∀ buf : List Byte, buf.length = n →
      s.modify .overwrite buf = some (ks, t) ∧
      s.modify .xor buf = some (List.zipWith (· ^^^ ·) buf ks, t)

/-- An ENC of zero bytes is a GEN of the same length (R111, R123). -/
def Obligations.EncOfZerosIsGen : Prop :=
  ∀ (len : Word) (s : State), exec (.enc (List.replicate len.toNat 0)) s = exec (.gen len) s

/-- R131, its "if" direction: with an empty buffer and a length that is a multiple of 64, GEN and ENC leave `OVB` and
`OFF` untouched, and the counter advances by `N / 64`. The specification marks R131 as derived; why not its other
direction, notes/assumptions/9.md says. -/
def Obligations.FastPathLeavesBuffer : Prop :=
  ∀ (i : Instr) (s : State), i.isData = true → s.ready = true → s.off = 64 → i.dataBytes.length % 64 = 0 →
    ∃ t, exec i s = .next t ∧ t.ovb = s.ovb ∧ t.off = s.off ∧
      t.ctr = s.ctr + BitVec.ofNat 64 (i.dataBytes.length / 64)

/-- R112, R165: a request for exactly the leftover bytes emits them, empties the buffer and does not refill it: no
block is produced, and the counter and `OVB` are as they were. The specification marks R165 as derived. -/
def Obligations.DrainDoesNotRefill : Prop :=
  ∀ s : State, s.ready = true →
    ∃ t, exec (.gen (BitVec.ofNat 32 s.leftover)) s = .next t ∧ t.dout = s.dout ++ s.ovb.toList.drop s.off.val ∧
      t.off = 64 ∧ t.x = s.x ∧ t.ovb = s.ovb ∧ t.ready = true

/-- A data command of length zero emits nothing, answers OK and leaves the counter and the buffer unchanged (R122). -/
def Obligations.ZeroLengthIsNoOp : Prop :=
  ∀ s : State, s.ready = true →
    exec (.gen 0) s = .next { s with output := s.output ++ [.rsp .ok] } ∧
    exec (.enc []) s = .next { s with output := s.output ++ [.rsp .ok] }

/-! ## Streams of commands -/

/-- R127 for GEN: any partition of a request into consecutive GEN commands emits the bytes of the one request and ends
in the same register file and cursor, and in the same leftover bytes. The specification marks R127 as derived. -/
def Obligations.GenPartitionIsOneRequest : Prop :=
  ∀ (lens : List Word) (s : State), s.ready = true → (lens.map BitVec.toNat).sum < 2 ^ 32 →
    ∃ t u, execAll (lens.map .gen) s = .next t ∧
      exec (.gen (BitVec.ofNat 32 (lens.map BitVec.toNat).sum)) s = .next u ∧
      t.dout = u.dout ∧ t.x = u.x ∧ t.off = u.off ∧
      ∀ (j : Nat) (h : j < 64), t.off.val ≤ j → t.ovb[j] = u.ovb[j]

/-- R127 for ENC: the same with the data cut at the same points. The specification marks R127 as derived. -/
def Obligations.EncPartitionIsOneRequest : Prop :=
  ∀ (pieces : List (List Byte)) (s : State), s.ready = true →
    ∃ t u, execAll (pieces.map .enc) s = .next t ∧ exec (.enc pieces.flatten) s = .next u ∧
      t.dout = u.dout ∧ t.x = u.x ∧ t.off = u.off ∧
      ∀ (j : Nat) (h : j < 64), t.off.val ≤ j → t.ovb[j] = u.ovb[j]

/-- R125: after a LOAD with counter `c0`, GEN and ENC commands of total length `T` use bytes `0..T-1` of the keystream
from `c0`, in order, none skipped or repeated; then `CTR = c0 +64 ceil(T / 64)`, and `OFF = T mod 64` if that is not
0, else 64. The specification marks R125 as derived. -/
def Obligations.LoadedInstanceStreamsInOrder : Prop :=
  ∀ (key : List Byte) (nonce : Vector Byte 8) (c0 : Dword) (cmds : List Instr) (s : State),
    (key.length = 16 ∨ key.length = 32) → (∀ i ∈ cmds, i.isData = true) →
    let data := cmds.flatMap Instr.dataBytes
    ∃ m t, initMatrix key nonce c0 = some m ∧ execAll (.load key nonce c0 :: cmds) s = .next t ∧
      t.dout = s.dout ++
        List.zipWith (· ^^^ ·) data ((List.range data.length).map fun k =>
          (keystreamBlock m (c0 + BitVec.ofNat 64 (k / 64))).toList.getD (k % 64) 0) ∧
      t.ctr = c0 + BitVec.ofNat 64 ((data.length + 63) / 64) ∧
      t.off.val = if data.length % 64 = 0 then 64 else data.length % 64

/-- R128: from two states that agree in `X`, `OFF` and the leftover bytes, what one encrypts the other decrypts. The
specification marks R128 as derived. -/
def Obligations.EncryptThenDecrypt : Prop :=
  ∀ (data : List Byte) (s u : State), s.ready = true → u.ready = true → s.x = u.x → s.off = u.off →
    (∀ (j : Nat) (h : j < 64), s.off.val ≤ j → s.ovb[j] = u.ovb[j]) →
    ∃ e s' u', exec (.enc data) s = .next s' ∧ s'.dout = s.dout ++ e ∧
      exec (.enc e) u = .next u' ∧ u'.dout = u.dout ++ data

/-- R129: with an empty buffer, SEEK to `c` and GEN 64 emit `KS(c)`, as a LOAD with the same key and nonce and counter
`c` and GEN 64 do; with leftover bytes the GEN emits these first and then the first `OFF` bytes of `KS(c)`, and leaves
`OFF` as it was and `CTR = c +64 1` (R165). `OFF` is never 0 between commands (R114,
`Obligations.StepKeepsInvariant`). The specification marks R129 as derived; the premise `0 < OFF` is the model's
(notes/assumptions/9.md). -/
def Obligations.SeekThenGenerate : Prop :=
  ∀ (c c0 : Dword) (key : List Byte) (nonce : Vector Byte 8) (s : State), s.ready = true →
    initMatrix key nonce c0 = some s.x →
    (s.off = 64 → ∃ t u, execAll [.seek c, .gen 64] s = .next t ∧
      execAll [.load key nonce c, .gen 64] s = .next u ∧
      t.dout = s.dout ++ (keystreamBlock s.x c).toList ∧ u.dout = t.dout) ∧
    (0 < s.off.val → s.off.val < 64 → ∃ t, execAll [.seek c, .gen 64] s = .next t ∧
      t.dout = s.dout ++ s.ovb.toList.drop s.off.val ++ (keystreamBlock s.x c).toList.take s.off.val ∧
      t.off = s.off ∧ t.ctr = c + 1)

/-- R61, R169: the sequence GENBIG stands for emits what one request of that length would, were it one command. The
specification rests this on R127, which it marks as derived. -/
def Obligations.GenBigIsOneLongRequest : Prop :=
  ∀ (n : Nat) (s : State), s.ready = true →
    ∃ t, execAll (genBigCommands n) s = .next t ∧ t.dout = s.dout ++ s.stream n ∧
      t.x = (s.afterData n).x ∧ t.off = (s.afterData n).off

/-- R147: the failing commands of a sequence can be removed: DOUT and the end state are the same. The specification
marks R147 as derived. -/
def Obligations.FailedCommandsLeaveNoTrace : Prop :=
  ∀ (is : List Instr) (s : State),
    ∃ t u, execAll is s = .next t ∧ execAll (succeeding s.ready is) s = .next u ∧
      t.dout = u.dout ∧ { t with output := [] } = { u with output := [] }

/-- R147, of what the host sends: where it sends whole frames, illegal headers and assertions of RST, the failing frames
and the illegal headers can be left out: DOUT and the end state are the same. The specification marks R147 as derived;
that RST acts after the frames before it is the model's choice (notes/assumptions/2.md). -/
def Obligations.FailedFramesLeaveNoTrace : Prop :=
  ∀ (sent : List Sent) (s : State) (rest : List Input), (∀ a ∈ sent, a.WellFormed) →
    ∃ t u : State,
      core.run sent.length { s with input := sent.flatMap Sent.inputs ++ rest } = .next t ∧
      core.run (succeedingSent s.ready sent).length
        { s with input := (succeedingSent s.ready sent).flatMap Sent.inputs ++ rest } = .next u ∧
      t.dout = u.dout ∧ { t with output := [] } = { u with output := [] }

/-! ## Whole-machine rules -/

/-- R58: a command is answered with exactly one response, after its DOUT bytes; LOAD and SEEK and every failing
command have none, and a GEN or ENC has as many as its length. -/
def Obligations.OneResponseAfterTheBytes : Prop :=
  ∀ (i : Instr) (s t : State), exec i s = .next t →
    ∃ bs r, t.output = s.output ++ bs.map .dout ++ [.rsp r] ∧
      (r ≠ .ok → bs = []) ∧ (r = .ok → bs.length = i.dataBytes.length) ∧
      (r = .ok ∨ (r = .invalidKeySize ∧ i.opcode = .load) ∨ (r = .notReady ∧ i.opcode ≠ .load))

/-- R140, R145: a command whose response is not OK leaves the state bit for bit as it was before it. -/
def Obligations.ErrorsKeepEveryBit : Prop :=
  ∀ (i : Instr) (s t : State) (r : Response), exec i s = .next t → t.output.getLast? = some (.rsp r) → r ≠ .ok →
    t = { s with output := s.output ++ [.rsp r] }

/-- R14: outside LOAD, no command changes a word of `X` but the two counter words, and none changes READY or takes
anything from the ports; LOAD and SEEK do not write `OVB` (R91, R124). -/
def Obligations.CommandFrames : Prop :=
  ∀ (i : Instr) (s t : State), exec i s = .next t →
    (i.opcode ≠ .load → t.ready = s.ready ∧
      ∀ (j : Nat) (h : j < 16), j ≠ 8 → j ≠ 9 → t.x[j] = s.x[j]) ∧
    (i.opcode = .load ∨ i.opcode = .seek → t.ovb = s.ovb) ∧
    (i.opcode = .seek → t.off = s.off) ∧
    t.input = s.input

/-- R17: READY is set by a successful LOAD, cleared only by reset, and by no command; while it is 0, as after reset, GEN,
ENC and SEEK are refused. That READY is cleared only where no whole frame stands before the RST is the model's choice
(notes/assumptions/2.md). -/
def Obligations.ReadySetByLoadClearedByReset : Prop :=
  (∀ (i : Instr) (s t : State), exec i s = .next t →
    (t.ready = true ↔ s.ready = true ∨
      ∃ key nonce ctr0, i = .load key nonce ctr0 ∧ (key.length = 16 ∨ key.length = 32))) ∧
  (∀ s t : State, step s = .next t → s.ready = true → t.ready = false →
    decode (leadingBytes s.input) = .incomplete ∧ ∃ rest, afterBytes s.input = .rst :: rest) ∧
  (∀ (i : Instr) (s : State), i.opcode ≠ .load → s.ready = false →
    exec i s = .next { s with output := s.output ++ [.rsp .notReady] }) ∧
  State.reset.ready = false

/-- R114, R14, R17, R92: what holds between commands is kept by every step: the cursor is never 0, with no instance
the buffer is empty, an instance has a matrix that INIT writes but for its counter, and leftover bytes are of a
keystream block of the present key and nonce. The specification marks R114 as derived, and takes the values and places
of the constants and the key words (R90, R92) "from general knowledge, not in source" (notes/assumptions/8.md). -/
def Obligations.StepKeepsInvariant : Prop :=
  ∀ s t : State, s.Inv → step s = .next t → t.Inv

/-- The invariant holds after reset. -/
def Obligations.ResetMeetsInvariant : Prop := State.reset.Inv

/-- R23, R114: what "holds no value" and what is behind the cursor is never observed. Two states that agree in all
else take steps to states that agree in all else, with the same bytes and responses on the ports. The specification
marks R23 and R114 as derived; what stands in `X` and `OVB` after reset is the model's choice
(notes/assumptions/1.md), and this says that it is never seen. -/
def Obligations.HiddenStateIsUnobservable : Prop :=
  ∀ s t : State, s.Agree t → OutcomesAgree (step s) (step t)

/-- R61: each pseudo-command puts on the ports what its expansion puts there, and RESET is no frame (R60). -/
def Obligations.PseudoCommandsExpand : Prop :=
  (∀ d : List Byte, assemble [.dec d] = (encode (.enc d)).map .byte) ∧
  (∀ (k : List Byte) (n : Vector Byte 8) (c : Dword), assemble [.new k n c] = (encode (.load k n c)).map .byte) ∧
  (∀ n : Word, assemble [.keystream n] = (encode (.gen n)).map .byte) ∧
  (∀ n : Nat, assemble [.genBig n] = ((genBigCommands n).flatMap encode).map .byte) ∧
  assemble [.reset] = [.rst]
end

