-- ==== Sys2Proof/Laws/Bytes.lean ====
section
/-! SUPPORT. Little-endian bytes and words are each other's inverse (R31), and the fields of a header word (R51). -/

namespace Sys2Proof

theorem toNat_append_byte {n : Nat} (a : BitVec n) (b : Byte) : (a ++ b).toNat = a.toNat * 256 + b.toNat := by
  rw [BitVec.toNat_append, ← Nat.shiftLeft_add_eq_or_of_lt b.isLt, Nat.shiftLeft_eq]

theorem le32_toNat (b0 b1 b2 b3 : Byte) :
    (le32 b0 b1 b2 b3).toNat = b0.toNat + 2 ^ 8 * b1.toNat + 2 ^ 16 * b2.toNat + 2 ^ 24 * b3.toNat := by
  simp only [le32, toNat_append_byte]
  omega

theorem le64_toNat (b0 b1 b2 b3 b4 b5 b6 b7 : Byte) :
    (le64 b0 b1 b2 b3 b4 b5 b6 b7).toNat =
      b0.toNat + 2 ^ 8 * b1.toNat + 2 ^ 16 * b2.toNat + 2 ^ 24 * b3.toNat +
        2 ^ 32 * b4.toNat + 2 ^ 40 * b5.toNat + 2 ^ 48 * b6.toNat + 2 ^ 56 * b7.toNat := by
  simp only [le64, toNat_append_byte]
  omega

theorem wordByte_toNat (w : Word) (j : Nat) : (wordByte w j).toNat = w.toNat / 2 ^ (8 * j) % 256 := by
  simp [wordByte, BitVec.extractLsb'_toNat, Nat.shiftRight_eq_div_pow]

theorem dwordByte_toNat (d : Dword) (j : Nat) : (dwordByte d j).toNat = d.toNat / 2 ^ (8 * j) % 256 := by
  simp [dwordByte, BitVec.extractLsb'_toNat, Nat.shiftRight_eq_div_pow]

theorem le32_wordByte (w : Word) : le32 (wordByte w 0) (wordByte w 1) (wordByte w 2) (wordByte w 3) = w := by
  apply BitVec.eq_of_toNat_eq
  have := w.isLt
  simp only [le32_toNat, wordByte_toNat]
  omega

theorem le64_dwordByte (d : Dword) :
    le64 (dwordByte d 0) (dwordByte d 1) (dwordByte d 2) (dwordByte d 3)
      (dwordByte d 4) (dwordByte d 5) (dwordByte d 6) (dwordByte d 7) = d := by
  apply BitVec.eq_of_toNat_eq
  have := d.isLt
  simp only [le64_toNat, dwordByte_toNat]
  omega

theorem bytesLe32_le32 (b0 b1 b2 b3 : Byte) : bytesLe32 (le32 b0 b1 b2 b3) = [b0, b1, b2, b3] := by
  have h0 := b0.isLt; have h1 := b1.isLt; have h2 := b2.isLt; have h3 := b3.isLt
  simp only [bytesLe32, List.cons.injEq, and_true]
  refine ⟨?_, ?_, ?_, ?_⟩ <;> (apply BitVec.eq_of_toNat_eq; simp only [wordByte_toNat, le32_toNat]; omega)

theorem bytesLe64_le64 (b0 b1 b2 b3 b4 b5 b6 b7 : Byte) :
    bytesLe64 (le64 b0 b1 b2 b3 b4 b5 b6 b7) = [b0, b1, b2, b3, b4, b5, b6, b7] := by
  have h0 := b0.isLt; have h1 := b1.isLt; have h2 := b2.isLt; have h3 := b3.isLt
  have h4 := b4.isLt; have h5 := b5.isLt; have h6 := b6.isLt; have h7 := b7.isLt
  simp only [bytesLe64, List.cons.injEq, and_true]
  refine ⟨?_, ?_, ?_, ?_, ?_, ?_, ?_, ?_⟩ <;>
    (apply BitVec.eq_of_toNat_eq; simp only [dwordByte_toNat, le64_toNat]; omega)

theorem cwOpc_le32 (h0 h1 h2 h3 : Byte) : cwOpc (le32 h0 h1 h2 h3) = h0 := by
  have := h0.isLt
  apply BitVec.eq_of_toNat_eq
  simp only [cwOpc, BitVec.extractLsb'_toNat, Nat.shiftRight_eq_div_pow, le32_toNat]
  omega

theorem cwArg_le32 (h0 h1 h2 h3 : Byte) : cwArg (le32 h0 h1 h2 h3) = h1 := by
  have := h0.isLt; have := h1.isLt
  apply BitVec.eq_of_toNat_eq
  simp only [cwArg, BitVec.extractLsb'_toNat, Nat.shiftRight_eq_div_pow, le32_toNat]
  omega

theorem cwRsvd_le32 (h0 h1 h2 h3 : Byte) : cwRsvd (le32 h0 h1 h2 h3) = h3 ++ h2 := by
  have := h0.isLt; have := h1.isLt; have := h2.isLt; have := h3.isLt
  apply BitVec.eq_of_toNat_eq
  simp only [cwRsvd, BitVec.extractLsb'_toNat, Nat.shiftRight_eq_div_pow, le32_toNat, toNat_append_byte]
  omega

/-- `RSVD` is 0 exactly when header bytes 2 and 3 are. -/
theorem cwRsvd_le32_eq_zero (h0 h1 h2 h3 : Byte) : cwRsvd (le32 h0 h1 h2 h3) = 0 ↔ h2 = 0 ∧ h3 = 0 := by
  have := h2.isLt; have := h3.isLt
  rw [cwRsvd_le32]
  constructor
  · intro h
    have hn := congrArg BitVec.toNat h
    rw [toNat_append_byte] at hn
    simp only [BitVec.ofNat_eq_ofNat, BitVec.toNat_ofNat] at hn
    exact ⟨BitVec.eq_of_toNat_eq (by simp only [BitVec.ofNat_eq_ofNat, BitVec.toNat_ofNat]; omega), BitVec.eq_of_toNat_eq (by simp only [BitVec.ofNat_eq_ofNat, BitVec.toNat_ofNat]; omega)⟩
  · rintro ⟨rfl, rfl⟩
    rfl
end Sys2Proof
end

