-- ==== Sys2Proof/Laws/Framing.lean ====
section
/-! SUPPORT. What each part of the frame decoder answers on what the encoder writes, and what it must have read for what
it answers (R51 to R57). -/

namespace Sys2Proof

/-! ## The header -/

theorem opcodeOf_opcodeByte (op : Opcode) : opcodeOf (opcodeByte op) = some op := by cases op <;> rfl

theorem opcodeByte_of_opcodeOf {opc : Byte} {op : Opcode} (h : opcodeOf opc = some op) : opc = opcodeByte op := by
  unfold opcodeOf at h
  split_ifs at h with h1 h2 h3 h4 <;> cases h <;> assumption

/-- The four opcodes that are not reserved (R56). -/
theorem opcodeOf_eq_none_iff (opc : Byte) :
    opcodeOf opc = none ↔ opc ≠ 0x01 ∧ opc ≠ 0x02 ∧ opc ≠ 0x03 ∧ opc ≠ 0x04 := by
  unfold opcodeOf
  split_ifs <;> simp_all

/-- A header is legal exactly when its opcode is not reserved, `RSVD` is 0, and `ARG` is 0 but on LOAD (R56, R57). -/
theorem decodeHeader_eq_ok_iff (h0 h1 h2 h3 : Byte) (h : Header) :
    decodeHeader (le32 h0 h1 h2 h3) = .ok h ↔
      opcodeOf h0 = some h.op ∧ h1 = h.arg ∧ h2 = 0 ∧ h3 = 0 ∧ (h.op = .load ∨ h.arg = 0) := by
  obtain ⟨op, arg⟩ := h
  unfold decodeHeader
  rw [cwOpc_le32, cwArg_le32]
  cases hop : opcodeOf h0 with
  | none => simp
  | some o =>
    dsimp only
    by_cases hr : h2 = 0 ∧ h3 = 0
    · rw [if_neg (by rw [ne_eq, cwRsvd_le32_eq_zero]; exact not_not_intro hr)]
      by_cases ha : o ≠ .load ∧ h1 ≠ 0
      · rw [if_pos ha]
        simp only [reduceCtorEq, false_iff, Option.some.injEq]
        rintro ⟨rfl, rfl, -, -, h | h⟩
        · exact ha.1 h
        · exact ha.2 h
      · rw [if_neg ha]
        simp only [Except.ok.injEq, Header.mk.injEq, Option.some.injEq]
        constructor
        · rintro ⟨rfl, rfl⟩
          exact ⟨rfl, rfl, hr.1, hr.2, by tauto⟩
        · rintro ⟨rfl, rfl, -⟩
          exact ⟨rfl, rfl⟩
    · rw [if_pos (by rw [ne_eq, cwRsvd_le32_eq_zero]; exact hr)]
      simp only [reduceCtorEq, false_iff]
      exact fun h => hr ⟨h.2.2.1, h.2.2.2.1⟩

/-- The header the encoder writes is legal, and is read as it was written. -/
theorem decodeHeader_headerBytes (i : Instr) :
    decodeHeader (le32 (opcodeByte i.opcode) i.arg 0 0) = .ok ⟨i.opcode, i.arg⟩ := by
  rw [decodeHeader_eq_ok_iff]
  refine ⟨opcodeOf_opcodeByte _, rfl, rfl, rfl, ?_⟩
  cases i <;> simp [Instr.opcode, Instr.arg]

/-! ## The payload fields -/

theorem takeBytes_append (bs rest : List Byte) : takeBytes bs.length (bs ++ rest) = some (bs, rest) := by
  simp [takeBytes]

theorem takeBytes_eq_some_iff {n : Nat} {bs a rest : List Byte} :
    takeBytes n bs = some (a, rest) ↔ bs = a ++ rest ∧ a.length = n := by
  constructor
  · intro h
    unfold takeBytes at h
    split_ifs at h with hn
    cases h
    exact ⟨(List.take_append_drop n bs).symm, by simp [hn]⟩
  · rintro ⟨rfl, rfl⟩
    exact takeBytes_append a rest

theorem takeU32_eq_some_iff {bs rest : List Byte} {w : Word} :
    takeU32 bs = some (w, rest) ↔ bs = bytesLe32 w ++ rest := by
  constructor
  · intro h
    unfold takeU32 at h
    split at h
    · cases h
      rw [bytesLe32_le32]
      rfl
    · cases h
  · rintro rfl
    simp only [bytesLe32, List.cons_append, List.nil_append, takeU32, le32_wordByte]

theorem takeU64_eq_some_iff {bs rest : List Byte} {d : Dword} :
    takeU64 bs = some (d, rest) ↔ bs = bytesLe64 d ++ rest := by
  constructor
  · intro h
    unfold takeU64 at h
    split at h
    · cases h
      rw [bytesLe64_le64]
      rfl
    · cases h
  · rintro rfl
    simp only [bytesLe64, List.cons_append, List.nil_append, takeU64, le64_dwordByte]

/-- A vector of eight bytes is the vector of its entries. -/
theorem nonce_eta (n : Vector Byte 8) : n = #v[n[0], n[1], n[2], n[3], n[4], n[5], n[6], n[7]] := by
  ext i hi
  match i, hi with
  | 0, _ | 1, _ | 2, _ | 3, _ | 4, _ | 5, _ | 6, _ | 7, _ => rfl

theorem takeNonce_eq_some_iff {bs rest : List Byte} {n : Vector Byte 8} :
    takeNonce bs = some (n, rest) ↔ bs = n.toList ++ rest := by
  constructor
  · intro h
    unfold takeNonce at h
    split at h
    · cases h
      rfl
    · cases h
  · rintro rfl
    rw [nonce_eta n]
    rfl

/-! ## Lengths -/

@[simp] theorem length_bytesLe32 (w : Word) : (bytesLe32 w).length = 4 := rfl

@[simp] theorem length_bytesLe64 (d : Dword) : (bytesLe64 d).length = 8 := rfl

theorem encode_eq_cons (i : Instr) : encode i = opcodeByte i.opcode :: i.arg :: 0 :: 0 :: payloadBytes i := rfl

/-- The length of a frame (R52, R55, R59). -/
theorem length_encode (i : Instr) : (encode i).length = i.frameLength := by
  cases i <;>
    simp only [encode_eq_cons, payloadBytes, Instr.frameLength, List.length_cons, List.length_append,
      length_bytesLe32, length_bytesLe64, Vector.length_toList] <;> omega

/-! ## The decoder -/

/-- On a legal header the decoder reads the payload of its command. -/
theorem decode_cons_of_ok {h0 h1 h2 h3 : Byte} {h : Header} (hh : decodeHeader (le32 h0 h1 h2 h3) = .ok h)
    (p : List Byte) :
    decode (h0 :: h1 :: h2 :: h3 :: p) =
      match decodePayload h p with
      | none => .incomplete
      | some (i, rest) => .instr i rest := by
  cases hp : decodePayload h p <;> simp only [decode, hh, hp]

/-- On an illegal header the decoder stops after its four bytes (R56). -/
theorem decode_cons_of_error {h0 h1 h2 h3 : Byte} {e : HeaderError}
    (hh : decodeHeader (le32 h0 h1 h2 h3) = .error e) (p : List Byte) :
    decode (h0 :: h1 :: h2 :: h3 :: p) = .illegal e p := by
  simp only [decode, hh]

/-- Everything the decoder can answer: bytes are missing, the header is illegal, or the payload is read. -/
theorem decode_cases (bs : List Byte) :
    (bs.length < 4 ∧ decode bs = .incomplete) ∨
    ∃ h0 h1 h2 h3 p, bs = h0 :: h1 :: h2 :: h3 :: p ∧
      ((∃ e, decodeHeader (le32 h0 h1 h2 h3) = .error e ∧ decode bs = .illegal e p) ∨
       ∃ h, decodeHeader (le32 h0 h1 h2 h3) = .ok h ∧
        ((decodePayload h p = none ∧ decode bs = .incomplete) ∨
         ∃ i rest, decodePayload h p = some (i, rest) ∧ decode bs = .instr i rest)) := by
  match bs with
  | [] | [_] | [_, _] | [_, _, _] => exact .inl ⟨by simp, rfl⟩
  | h0 :: h1 :: h2 :: h3 :: p =>
    refine .inr ⟨h0, h1, h2, h3, p, rfl, ?_⟩
    cases hh : decodeHeader (le32 h0 h1 h2 h3) with
    | error e => exact .inl ⟨e, rfl, decode_cons_of_error hh p⟩
    | ok h =>
      refine .inr ⟨h, rfl, ?_⟩
      cases hp : decodePayload h p with
      | none => exact .inl ⟨rfl, by rw [decode_cons_of_ok hh, hp]⟩
      | some ir => exact .inr ⟨ir.1, ir.2, rfl, by rw [decode_cons_of_ok hh, hp]⟩

end Sys2Proof
end

