-- ==== Sys2Proof/Laws/State.lean ====
section
/-! SUPPORT. One lemma per field per update of the state, true by rfl, so that no later proof unfolds a record update. -/

namespace Sys2Proof.Machine

variable (s : State)

/-! ### setX -/

@[simp] theorem State.setX_x (m : StateMatrix) : (s.setX m).x = m := rfl
@[simp] theorem State.setX_ovb (m : StateMatrix) : (s.setX m).ovb = s.ovb := rfl
@[simp] theorem State.setX_off (m : StateMatrix) : (s.setX m).off = s.off := rfl
@[simp] theorem State.setX_ready (m : StateMatrix) : (s.setX m).ready = s.ready := rfl
@[simp] theorem State.setX_input (m : StateMatrix) : (s.setX m).input = s.input := rfl
@[simp] theorem State.setX_output (m : StateMatrix) : (s.setX m).output = s.output := rfl

/-! ### emit -/

@[simp] theorem State.emit_x (bs : List Byte) : (s.emit bs).x = s.x := rfl
@[simp] theorem State.emit_ovb (bs : List Byte) : (s.emit bs).ovb = s.ovb := rfl
@[simp] theorem State.emit_off (bs : List Byte) : (s.emit bs).off = s.off := rfl
@[simp] theorem State.emit_ready (bs : List Byte) : (s.emit bs).ready = s.ready := rfl
@[simp] theorem State.emit_input (bs : List Byte) : (s.emit bs).input = s.input := rfl
@[simp] theorem State.emit_output (bs : List Byte) : (s.emit bs).output = s.output ++ bs.map .dout := rfl

/-! ### respond -/

@[simp] theorem State.respond_x (r : Response) : (s.respond r).x = s.x := rfl
@[simp] theorem State.respond_ovb (r : Response) : (s.respond r).ovb = s.ovb := rfl
@[simp] theorem State.respond_off (r : Response) : (s.respond r).off = s.off := rfl
@[simp] theorem State.respond_ready (r : Response) : (s.respond r).ready = s.ready := rfl
@[simp] theorem State.respond_input (r : Response) : (s.respond r).input = s.input := rfl
@[simp] theorem State.respond_output (r : Response) : (s.respond r).output = s.output ++ [.rsp r] := rfl

/-! ### raiseError -/

@[simp] theorem State.raiseError_x (e : Error) : (s.raiseError e).x = s.x := rfl
@[simp] theorem State.raiseError_ovb (e : Error) : (s.raiseError e).ovb = s.ovb := rfl
@[simp] theorem State.raiseError_off (e : Error) : (s.raiseError e).off = s.off := rfl
@[simp] theorem State.raiseError_ready (e : Error) : (s.raiseError e).ready = s.ready := rfl
@[simp] theorem State.raiseError_input (e : Error) : (s.raiseError e).input = s.input := rfl
@[simp] theorem State.raiseError_output (e : Error) : (s.raiseError e).output = s.output ++ [.rsp e.response] := rfl

/-! ### rejectHeader -/

@[simp] theorem State.rejectHeader_x (e : HeaderError) : (s.rejectHeader e).x = s.x := rfl
@[simp] theorem State.rejectHeader_ovb (e : HeaderError) : (s.rejectHeader e).ovb = s.ovb := rfl
@[simp] theorem State.rejectHeader_off (e : HeaderError) : (s.rejectHeader e).off = s.off := rfl
@[simp] theorem State.rejectHeader_ready (e : HeaderError) : (s.rejectHeader e).ready = s.ready := rfl
@[simp] theorem State.rejectHeader_input (e : HeaderError) : (s.rejectHeader e).input = s.input := rfl
@[simp] theorem State.rejectHeader_output (e : HeaderError) : (s.rejectHeader e).output = s.output ++ [.rsp .illegalCmd] := rfl

/-! ### cinc -/

@[simp] theorem State.cinc_x : (s.cinc).x = counterInc s.x := rfl
@[simp] theorem State.cinc_ovb : (s.cinc).ovb = s.ovb := rfl
@[simp] theorem State.cinc_off : (s.cinc).off = s.off := rfl
@[simp] theorem State.cinc_ready : (s.cinc).ready = s.ready := rfl
@[simp] theorem State.cinc_input : (s.cinc).input = s.input := rfl
@[simp] theorem State.cinc_output : (s.cinc).output = s.output := rfl

/-! ### sctr -/

@[simp] theorem State.sctr_x (v : Dword) : (s.sctr v).x = withCounter s.x v := rfl
@[simp] theorem State.sctr_ovb (v : Dword) : (s.sctr v).ovb = s.ovb := rfl
@[simp] theorem State.sctr_off (v : Dword) : (s.sctr v).off = s.off := rfl
@[simp] theorem State.sctr_ready (v : Dword) : (s.sctr v).ready = s.ready := rfl
@[simp] theorem State.sctr_input (v : Dword) : (s.sctr v).input = s.input := rfl
@[simp] theorem State.sctr_output (v : Dword) : (s.sctr v).output = s.output := rfl

/-! ### assertReset -/

@[simp] theorem State.assertReset_x : (s.assertReset).x = Config.resetX := rfl
@[simp] theorem State.assertReset_ovb : (s.assertReset).ovb = Config.resetOvb := rfl
@[simp] theorem State.assertReset_off : (s.assertReset).off = 64 := rfl
@[simp] theorem State.assertReset_ready : (s.assertReset).ready = false := rfl
@[simp] theorem State.assertReset_input : (s.assertReset).input = s.input := rfl
@[simp] theorem State.assertReset_output : (s.assertReset).output = s.output := rfl

/-! ### sendBytes -/

@[simp] theorem State.sendBytes_x (bs : List Byte) : (s.sendBytes bs).x = s.x := rfl
@[simp] theorem State.sendBytes_ovb (bs : List Byte) : (s.sendBytes bs).ovb = s.ovb := rfl
@[simp] theorem State.sendBytes_off (bs : List Byte) : (s.sendBytes bs).off = s.off := rfl
@[simp] theorem State.sendBytes_ready (bs : List Byte) : (s.sendBytes bs).ready = s.ready := rfl
@[simp] theorem State.sendBytes_input (bs : List Byte) : (s.sendBytes bs).input = s.input ++ bs.map .byte := rfl
@[simp] theorem State.sendBytes_output (bs : List Byte) : (s.sendBytes bs).output = s.output := rfl

/-! ### sendReset -/

@[simp] theorem State.sendReset_x : (s.sendReset).x = s.x := rfl
@[simp] theorem State.sendReset_ovb : (s.sendReset).ovb = s.ovb := rfl
@[simp] theorem State.sendReset_off : (s.sendReset).off = s.off := rfl
@[simp] theorem State.sendReset_ready : (s.sendReset).ready = s.ready := rfl
@[simp] theorem State.sendReset_input : (s.sendReset).input = s.input ++ [.rst] := rfl
@[simp] theorem State.sendReset_output : (s.sendReset).output = s.output := rfl

/-! ### withFetchWord -/

@[simp] theorem State.withFetchWord_x (nbits w : Nat) : (s.withFetchWord nbits w).x = s.x := rfl
@[simp] theorem State.withFetchWord_ovb (nbits w : Nat) : (s.withFetchWord nbits w).ovb = s.ovb := rfl
@[simp] theorem State.withFetchWord_off (nbits w : Nat) : (s.withFetchWord nbits w).off = s.off := rfl
@[simp] theorem State.withFetchWord_ready (nbits w : Nat) : (s.withFetchWord nbits w).ready = s.ready := rfl
@[simp] theorem State.withFetchWord_input (nbits w : Nat) : (s.withFetchWord nbits w).input = (tableFrame nbits w).map .byte ++ s.input := rfl
@[simp] theorem State.withFetchWord_output (nbits w : Nat) : (s.withFetchWord nbits w).output = s.output := rfl

/-! ### refill -/

@[simp] theorem State.refill_x : (s.refill).x = counterInc s.x := rfl
@[simp] theorem State.refill_off : (s.refill).off = 0 := rfl
@[simp] theorem State.refill_ready : (s.refill).ready = s.ready := rfl
@[simp] theorem State.refill_input : (s.refill).input = s.input := rfl
@[simp] theorem State.refill_output : (s.refill).output = s.output := rfl

/-! ### The reset state (R22) -/

@[simp] theorem State.reset_off : State.reset.off = 64 := rfl
@[simp] theorem State.reset_ready : State.reset.ready = false := rfl
@[simp] theorem State.reset_input : State.reset.input = [] := rfl
@[simp] theorem State.reset_output : State.reset.output = [] := rfl

/-! ### The streams -/

@[simp] theorem State.dout_emit (bs : List Byte) : (s.emit bs).dout = s.dout ++ bs := by
  simp only [State.dout, State.emit_output, List.filterMap_append, List.filterMap_map]
  congr 1
  exact List.filterMap_some

@[simp] theorem State.dout_respond (r : Response) : (s.respond r).dout = s.dout := by
  simp [State.dout, Output.doutByte]

@[simp] theorem State.rsp_emit (bs : List Byte) : (s.emit bs).rsp = s.rsp := by
  simp only [State.rsp, State.emit_output, List.filterMap_append, List.filterMap_map]
  rw [show (Output.response ∘ Output.dout) = fun _ => none from rfl]
  simp

@[simp] theorem State.rsp_respond (r : Response) : (s.respond r).rsp = s.rsp ++ [r] := by
  simp [State.rsp, Output.response]

@[simp] theorem State.dout_raiseError (e : Error) : (s.raiseError e).dout = s.dout := s.dout_respond _

@[simp] theorem State.rsp_raiseError (e : Error) : (s.raiseError e).rsp = s.rsp ++ [e.response] := s.rsp_respond _

end Sys2Proof.Machine
end

