-- ==== Sys2Proof/Laws/BlockGenerator.lean ====
section
/-! SUPPORT. The counter as a 64-bit number (R12, R94, R95), the bytes of a block (R31, R33, R77), and everything LOAD
can do (R90, R91). -/

namespace Sys2Proof.Machine

/-! ## The view CTR of the register file (R12) -/

theorem getElem_withCounter (x : StateMatrix) (v : Dword) (j : Nat) (h : j < 16) :
    (withCounter x v)[j] =
      if j = 9 then v.extractLsb' 32 32 else if j = 8 then v.extractLsb' 0 32 else x[j] := by
  simp only [withCounter, Vector.getElem_set]
  grind

@[simp] theorem withCounter_low (x : StateMatrix) (v : Dword) : (withCounter x v)[8] = v.extractLsb' 0 32 :=
  getElem_withCounter x v 8 (by decide)

@[simp] theorem withCounter_high (x : StateMatrix) (v : Dword) : (withCounter x v)[9] = v.extractLsb' 32 32 :=
  getElem_withCounter x v 9 (by decide)

/-- The other fourteen words are kept. -/
theorem withCounter_other (x : StateMatrix) (v : Dword) (j : Nat) (h : j < 16) (h8 : j ≠ 8) (h9 : j ≠ 9) :
    (withCounter x v)[j] = x[j] := by
  rw [getElem_withCounter, if_neg h9, if_neg h8]

theorem counterOf_toNat (x : StateMatrix) : (counterOf x).toNat = x[9].toNat * 2 ^ 32 + x[8].toNat := by
  rw [counterOf, BitVec.toNat_append, ← Nat.shiftLeft_add_eq_or_of_lt x[8].isLt, Nat.shiftLeft_eq]

/-- Reading the counter after writing it. -/
@[simp] theorem counterOf_withCounter (x : StateMatrix) (v : Dword) : counterOf (withCounter x v) = v := by
  have := v.isLt
  apply BitVec.eq_of_toNat_eq
  rw [counterOf_toNat, withCounter_low, withCounter_high]
  simp only [BitVec.extractLsb'_toNat, Nat.shiftRight_eq_div_pow]
  omega

/-- Writing what the counter already holds changes nothing. -/
@[simp] theorem withCounter_counterOf (x : StateMatrix) : withCounter x (counterOf x) = x := by
  have h8 := x[8].isLt
  have h9 := x[9].isLt
  have hc := counterOf_toNat x
  ext1 j hj
  rw [getElem_withCounter]
  split_ifs with e9 e8
  · subst e9
    apply BitVec.eq_of_toNat_eq
    simp only [BitVec.extractLsb'_toNat, Nat.shiftRight_eq_div_pow, hc]
    omega
  · subst e8
    apply BitVec.eq_of_toNat_eq
    simp only [BitVec.extractLsb'_toNat, Nat.shiftRight_eq_div_pow, hc]
    omega
  · rfl

/-- The last write of the counter counts. -/
@[simp] theorem withCounter_withCounter (x : StateMatrix) (v w : Dword) :
    withCounter (withCounter x v) w = withCounter x w := by
  ext1 j hj
  simp only [getElem_withCounter]
  split_ifs <;> rfl

/-- CINC is `CTR <- CTR +64 1` (R94). -/
theorem counterInc_eq (x : StateMatrix) : counterInc x = withCounter x (counterOf x + 1) := by
  have h8 := x[8].isLt
  have h9 := x[9].isLt
  have hc := counterOf_toNat x
  have hl : lowWrapped (add32 x[8] 1) = true ↔ x[8].toNat = 2 ^ 32 - 1 := by
    rw [lowWrapped, beq_iff_eq, ← BitVec.toNat_inj]
    simp only [add32, BitVec.toNat_add, BitVec.ofNat_eq_ofNat, BitVec.toNat_ofNat]
    omega
  ext1 j hj
  rw [getElem_withCounter, counterInc]
  by_cases hw : lowWrapped (add32 x[8] 1) = true
  · have hx := hl.1 hw
    simp only [hw, if_true, Vector.getElem_set]
    by_cases e9 : j = 9
    · subst e9
      rw [if_pos rfl, if_pos rfl]
      apply BitVec.eq_of_toNat_eq
      simp only [add32, BitVec.toNat_add, BitVec.extractLsb'_toNat, Nat.shiftRight_eq_div_pow, hc,
        BitVec.ofNat_eq_ofNat, BitVec.toNat_ofNat]
      omega
    · rw [if_neg (fun h => e9 h.symm), if_neg e9]
      by_cases e8 : j = 8
      · subst e8
        rw [if_pos rfl, if_pos rfl]
        apply BitVec.eq_of_toNat_eq
        simp only [add32, BitVec.toNat_add, BitVec.extractLsb'_toNat, Nat.shiftRight_eq_div_pow, hc,
          BitVec.ofNat_eq_ofNat, BitVec.toNat_ofNat]
        omega
      · rw [if_neg (fun h => e8 h.symm), if_neg e8]
  · have hx : x[8].toNat ≠ 2 ^ 32 - 1 := fun h => hw (hl.2 h)
    simp only [hw, if_false, Vector.getElem_set, Bool.false_eq_true]
    by_cases e8 : j = 8
    · subst e8
      rw [if_pos rfl, if_neg (by decide), if_pos rfl]
      apply BitVec.eq_of_toNat_eq
      simp only [add32, BitVec.toNat_add, BitVec.extractLsb'_toNat, Nat.shiftRight_eq_div_pow, hc,
        BitVec.ofNat_eq_ofNat, BitVec.toNat_ofNat]
      omega
    · rw [if_neg (fun h => e8 h.symm), if_neg e8]
      by_cases e9 : j = 9
      · subst e9
        rw [if_pos rfl]
        apply BitVec.eq_of_toNat_eq
        simp only [BitVec.toNat_add, BitVec.extractLsb'_toNat, Nat.shiftRight_eq_div_pow, hc,
          BitVec.ofNat_eq_ofNat, BitVec.toNat_ofNat]
        omega
      · rw [if_neg e9]

/-! ## The keystream does not depend on the counter the matrix holds (R98) -/

@[simp] theorem keystreamBlock_withCounter (x : StateMatrix) (v c : Dword) :
    keystreamBlock (withCounter x v) c = keystreamBlock x c := by
  rw [keystreamBlock, keystreamBlock, withCounter_withCounter]

/-- The block PBLK produces next is `KS(CTR)` (R98). -/
theorem core20_eq_keystreamBlock (x : StateMatrix) : core20 x = keystreamBlock x (counterOf x) := by
  rw [keystreamBlock, withCounter_counterOf]

/-! ## The bytes of a block (R31, R33, R77) -/

theorem getElem_serialize (z : StateMatrix) (k : Nat) (h : k < 64) :
    (serialize z)[k] = wordByte (z[k / 4]'(by omega)) (k % 4) := by
  simp [serialize]

theorem getElem_coreWords (x : StateMatrix) (i : Nat) (h : i < 16) :
    (coreWords x)[i] = (doubleRounds 10 x)[i] + x[i] := by
  simp [coreWords, feedForward, add32]

/-! ## LOAD (R90, R91) -/

theorem initMatrix_of_32 {key : List Byte} (h : key.length = 32) (nonce : Vector Byte 8) (ctr0 : Dword) :
    initMatrix key nonce ctr0 =
      some (matrixOf sigma (keyHalf key 0 (by omega)) (keyHalf key 1 (by omega)) (nonceWords nonce) ctr0) := by
  rw [initMatrix, dif_pos h]

theorem initMatrix_of_16 {key : List Byte} (h : key.length = 16) (nonce : Vector Byte 8) (ctr0 : Dword) :
    initMatrix key nonce ctr0 =
      some (matrixOf tau (keyHalf key 0 (by omega)) (keyHalf key 0 (by omega)) (nonceWords nonce) ctr0) := by
  rw [initMatrix, dif_neg (by omega), dif_pos h]

theorem initMatrix_eq_none_iff (key : List Byte) (nonce : Vector Byte 8) (ctr0 : Dword) :
    initMatrix key nonce ctr0 = none ↔ key.length ≠ 16 ∧ key.length ≠ 32 := by
  unfold initMatrix
  split_ifs <;> simp <;> omega

theorem matrixOf_withCounter (con k0 k1 : Vector Word 4) (n : Vector Word 2) (c d : Dword) :
    withCounter (matrixOf con k0 k1 n c) d = matrixOf con k0 k1 n d := rfl

/-- INIT puts `ctr0` into the counter. -/
theorem counterOf_initMatrix {key : List Byte} {nonce : Vector Byte 8} {ctr0 : Dword} {m : StateMatrix}
    (h : initMatrix key nonce ctr0 = some m) : counterOf m = ctr0 := by
  unfold initMatrix at h
  split_ifs at h <;> cases h <;> rw [← matrixOf_withCounter (c := ctr0), counterOf_withCounter]

/-- INIT writes a legal matrix. -/
theorem legalMatrix_initMatrix {key : List Byte} {nonce : Vector Byte 8} {ctr0 : Dword} {m : StateMatrix}
    (h : initMatrix key nonce ctr0 = some m) : LegalMatrix m := by
  unfold initMatrix at h
  split_ifs at h <;> cases h
  · exact .inl ⟨rfl, rfl, rfl, rfl⟩
  · exact .inr ⟨rfl, rfl, rfl, rfl, rfl, rfl, rfl, rfl⟩

theorem legalMatrix_withCounter {x : StateMatrix} (h : LegalMatrix x) (v : Dword) : LegalMatrix (withCounter x v) := by
  simpa only [LegalMatrix, getElem_withCounter, Nat.reduceEqDiff, if_false, OfNat.ofNat_ne_zero,
    OfNat.zero_ne_ofNat, OfNat.one_ne_ofNat] using h

/-- Everything LOAD can do: InvalidKeySize with nothing changed, or a new register file, an empty buffer and READY. -/
theorem execLoad_cases (key : List Byte) (nonce : Vector Byte 8) (ctr0 : Dword) (s : State) :
    (key.length ≠ 16 ∧ key.length ≠ 32 ∧
      execLoad key nonce ctr0 s = .next (s.raiseError (.invalidKeySize key.length))) ∨
    ((key.length = 16 ∨ key.length = 32) ∧ ∃ m, initMatrix key nonce ctr0 = some m ∧
      execLoad key nonce ctr0 s = .next (State.respond { s with x := m, off := 64, ready := true } .ok)) := by
  cases h : initMatrix key nonce ctr0 with
  | none =>
    have := (initMatrix_eq_none_iff key nonce ctr0).1 h
    exact .inl ⟨this.1, this.2, by rw [execLoad, h]⟩
  | some m =>
    refine .inr ⟨?_, m, rfl, by rw [execLoad, h]⟩
    by_contra hne
    rw [(initMatrix_eq_none_iff key nonce ctr0).2 (by tauto)] at h
    cases h

end Sys2Proof.Machine
end

