-- ==== Sys2Proof/Laws/Facade.lean ====
section
/-! SUPPORT. The mixers, SERVE, REFILL and PBLK, and MODIFY in closed form (R93, R111 to R115, R120, R126). -/

namespace Sys2Proof.Machine

/-! ## The mixers (R111) -/

theorem length_mixBytes (sel : Mixer) (dest ks : List Byte) :
    (mixBytes sel dest ks).length = min dest.length ks.length := List.length_zipWith

theorem mixBytes_append (sel : Mixer) {d1 d2 k1 k2 : List Byte} (h : d1.length = k1.length) :
    mixBytes sel (d1 ++ d2) (k1 ++ k2) = mixBytes sel d1 k1 ++ mixBytes sel d2 k2 := List.zipWith_append h

/-- The overwrite mixer never reads its destination (R37). -/
theorem mixBytes_overwrite {dest ks : List Byte} (h : dest.length = ks.length) : mixBytes .overwrite dest ks = ks := by
  induction dest generalizing ks with
  | nil => cases ks <;> simp_all [mixBytes]
  | cons d ds ih =>
    cases ks with
    | nil => simp at h
    | cons k ks =>
      simp only [mixBytes, List.zipWith_cons_cons, mix, List.cons.injEq, true_and]
      exact ih (by simpa using h)

theorem mixBytes_xor (dest ks : List Byte) : mixBytes .xor dest ks = List.zipWith (· ^^^ ·) dest ks := rfl

/-- With a destination of zeros the two mixers agree (R111). -/
theorem mixBytes_xor_zero (n : Nat) {ks : List Byte} (h : ks.length = n) :
    mixBytes .xor (List.replicate n 0) ks = ks := by
  subst h
  induction ks with
  | nil => rfl
  | cons k ks ih =>
    simp only [List.length_cons, List.replicate_succ, mixBytes_xor, List.zipWith_cons_cons] at ih ⊢
    rw [ih, BitVec.ofNat_eq_ofNat, BitVec.zero_xor]

/-! ## The bytes of the keystream -/

/-- The first `n` bytes of the keystream from the counter of a matrix (R98). -/
def freshBytes (x : StateMatrix) (n : Nat) : List Byte := (List.range n).map (freshByte x)

@[simp] theorem length_freshBytes (x : StateMatrix) (n : Nat) : (freshBytes x n).length = n := by simp [freshBytes]

@[simp] theorem length_stream (s : State) (n : Nat) : (s.stream n).length = n := by simp [State.stream]

theorem freshByte_withCounter_add (x : StateMatrix) (q k : Nat) :
    freshByte (withCounter x (counterOf x + BitVec.ofNat 64 q)) k = freshByte x (64 * q + k) := by
  simp only [freshByte, counterOf_withCounter, keystreamBlock_withCounter]
  have h1 : (64 * q + k) / 64 = q + k / 64 := by omega
  have h2 : (64 * q + k) % 64 = k % 64 := by omega
  simp only [h1, h2, BitVec.ofNat_add, BitVec.add_assoc]

theorem freshBytes_add (x : StateMatrix) (q n : Nat) :
    freshBytes x (64 * q + n) =
      freshBytes x (64 * q) ++ freshBytes (withCounter x (counterOf x + BitVec.ofNat 64 q)) n := by
  simp only [freshBytes, List.range_add, List.map_append, List.map_map]
  refine congrArg _ (List.map_congr_left fun k _ => ?_)
  exact (freshByte_withCounter_add x q k).symm

/-- Less than a block of fresh keystream is a part of `KS(CTR)`. -/
theorem freshBytes_of_le (x : StateMatrix) {n : Nat} (h : n ≤ 64) :
    freshBytes x n = (keystreamBlock x (counterOf x)).toList.take n := by
  apply List.ext_getElem
  · simp [freshBytes]; omega
  · intro k h1 h2
    have hk : k < 64 := by simp at h1; omega
    simp [freshBytes, freshByte, Nat.div_eq_of_lt hk, Nat.mod_eq_of_lt hk]

/-! ## SERVE, REFILL, PBLK -/

theorem State.produceBlock_eq (s : State) :
    s.produceBlock = (keystreamBlock s.x s.ctr, { s with x := withCounter s.x (s.ctr + 1) }) := by
  rw [State.produceBlock, core20_eq_keystreamBlock, State.cinc, counterInc_eq]
  rfl

/-- PBLK: the window is mixed with `KS(CTR)`, and the counter advances by one (R93, R98). -/
theorem State.pblk_eq (s : State) (sel : Mixer) (window : List Byte) :
    s.pblk sel window =
      (mixBytes sel window (keystreamBlock s.x s.ctr).toList, { s with x := withCounter s.x (s.ctr + 1) }) := by
  rw [State.pblk, State.produceBlock_eq]

/-- REFILL: `OVB <- KS(CTR); CTR <- CTR +64 1; OFF <- 0` (R113). -/
theorem State.refill_eq (s : State) :
    s.refill = { s with x := withCounter s.x (s.ctr + 1), ovb := keystreamBlock s.x s.ctr, off := 0 } := by
  have h : Vector.zipWith (mix .overwrite) s.ovb (keystreamBlock s.x s.ctr) = keystreamBlock s.x s.ctr := by
    ext1 j hj
    rw [Vector.getElem_zipWith]
    rfl
  rw [State.refill, State.produceBlock_eq]
  simp only [h]

/-- SERVE inside its domain (R112). -/
theorem State.serve_of_le (s : State) (sel : Mixer) (dest : List Byte) (h : dest.length ≤ s.leftover) :
    s.serve sel dest = some (mixBytes sel dest (s.ovb.toList.drop s.off.val),
      { s with off := ⟨s.off.val + dest.length, by unfold State.leftover at h; omega⟩ }) := dif_pos h

/-- SERVE has a result exactly inside its domain (R112, R115). -/
theorem State.serve_isSome_iff (s : State) (sel : Mixer) (dest : List Byte) :
    (s.serve sel dest).isSome = true ↔ dest.length ≤ s.leftover := by
  unfold State.serve
  split_ifs with h <;> simp [h]

/-- The leftover bytes are the first bytes of the stream. -/
theorem State.stream_of_le (s : State) {n : Nat} (h : n ≤ s.leftover) :
    s.stream n = (s.ovb.toList.drop s.off.val).take n := by
  have hl : s.leftover = 64 - s.off.val := rfl
  apply List.ext_getElem
  · simp; omega
  · intro k h1 h2
    have hk : k < s.leftover := by simp at h1; omega
    simp [State.stream, State.streamByte, hk]

theorem mixBytes_take (sel : Mixer) (dest ks : List Byte) :
    mixBytes sel dest (ks.take dest.length) = mixBytes sel dest ks := by
  induction dest generalizing ks with
  | nil => cases ks <;> rfl
  | cons d ds ih =>
    cases ks with
    | nil => rfl
    | cons k ks =>
      simp only [mixBytes, List.length_cons, List.take_succ_cons, List.zipWith_cons_cons] at ih ⊢
      rw [ih]

theorem mixBytes_take_of_eq (sel : Mixer) {dest : List Byte} {n : Nat} (h : dest.length = n) (ks : List Byte) :
    mixBytes sel dest (ks.take n) = mixBytes sel dest ks := by
  subst h
  exact mixBytes_take sel dest ks

/-! ## Phase 2, phase 3 and MODIFY -/

/-- Phase 2: `q` blocks of fresh keystream (R120). -/
theorem State.wholeBlocks_eq (sel : Mixer) (q : Nat) :
    ∀ (buf : List Byte) (s : State), buf.length = 64 * q →
      State.wholeBlocks sel q buf s =
        (mixBytes sel buf (freshBytes s.x (64 * q)),
          { s with x := withCounter s.x (s.ctr + BitVec.ofNat 64 q) }) := by
  induction q with
  | zero =>
    intro buf s h
    have : buf = [] := List.eq_nil_of_length_eq_zero (by simpa using h)
    subst this
    simp [State.wholeBlocks, mixBytes, State.ctr]
  | succ q ih =>
    intro buf s h
    have hd : (buf.drop 64).length = 64 * q := by simp; omega
    have ht : (buf.take 64).length = 64 := by simp; omega
    have hctr : (BitVec.ofNat 64 (q + 1) : Dword) = 1 + BitVec.ofNat 64 q := by
      rw [Nat.add_comm, BitVec.ofNat_add]
      rfl
    rw [State.wholeBlocks, State.pblk_eq, ih _ _ hd]
    have hk : (keystreamBlock s.x s.ctr).toList = freshBytes s.x (64 * 1) := by
      rw [freshBytes_of_le _ (by decide), List.take_of_length_le (by simp)]
      rfl
    have hs : 64 * (q + 1) = 64 * 1 + 64 * q := by omega
    rw [hk, hs, freshBytes_add, ← mixBytes_append sel (by simpa using ht), List.take_append_drop]
    simp [State.ctr, hctr, BitVec.add_assoc]

/-- What phases 2 and 3 leave: the state of R126 for a request that starts with an empty buffer. -/
def State.afterFresh (s : State) (n : Nat) : State :=
  if 0 < n % 64 then
    { s with
      x := withCounter s.x (s.ctr + BitVec.ofNat 64 (n / 64) + 1)
      off := ⟨n % 64, Nat.lt_trans (Nat.mod_lt _ (by decide)) (by decide)⟩
      ovb := keystreamBlock s.x (s.ctr + BitVec.ofNat 64 (n / 64)) }
  else { s with x := withCounter s.x (s.ctr + BitVec.ofNat 64 (n / 64)) }

/-- Phases 2 and 3 of MODIFY in closed form (R120, R126). -/
theorem State.freshPart_eq (s : State) (sel : Mixer) (buf : List Byte) :
    s.freshPart sel buf = some (mixBytes sel buf (freshBytes s.x buf.length), s.afterFresh buf.length) := by
  have hq : 64 * (buf.length / 64) + buf.length % 64 = buf.length := Nat.div_add_mod _ _
  have ht : (buf.take (64 * (buf.length / 64))).length = 64 * (buf.length / 64) := by simp; omega
  have hd : (buf.drop (64 * (buf.length / 64))).length = buf.length % 64 := by simp; omega
  have hlt : buf.length % 64 < 64 := Nat.mod_lt _ (by decide)
  rw [State.freshPart, State.wholeBlocks_eq _ _ _ _ ht]
  simp only [State.lastPart, hd]
  by_cases hr : buf.length % 64 = 0
  · rw [if_pos hr]
    have hn : 64 * (buf.length / 64) = buf.length := by omega
    simp [State.afterFresh, hr, hn]
  · rw [if_neg hr, State.refill_eq]
    rw [State.serve_of_le _ _ _ (by rw [hd]; exact Nat.le_of_lt hlt)]
    have hs := freshBytes_add s.x (buf.length / 64) (buf.length % 64)
    rw [hq] at hs
    have hk : mixBytes sel (buf.drop (64 * (buf.length / 64)))
          (freshBytes (withCounter s.x (s.ctr + BitVec.ofNat 64 (buf.length / 64))) (buf.length % 64)) =
        mixBytes sel (buf.drop (64 * (buf.length / 64)))
          (keystreamBlock s.x (s.ctr + BitVec.ofNat 64 (buf.length / 64))).toList := by
      rw [freshBytes_of_le _ (Nat.le_of_lt hlt), ← hd, mixBytes_take, counterOf_withCounter,
        keystreamBlock_withCounter]
    have hsplit : mixBytes sel buf (freshBytes s.x buf.length) =
        mixBytes sel (buf.take (64 * (buf.length / 64))) (freshBytes s.x (64 * (buf.length / 64))) ++
        mixBytes sel (buf.drop (64 * (buf.length / 64)))
          (keystreamBlock s.x (s.ctr + BitVec.ofNat 64 (buf.length / 64))).toList := by
      rw [← hk, ← mixBytes_append sel (by rw [ht, length_freshBytes]), List.take_append_drop, hs]
      rfl
    rw [hsplit]
    simp [State.afterFresh, Nat.pos_of_ne_zero hr, State.ctr, hd]

/-- Past the leftover bytes the stream is fresh keystream. -/
theorem State.stream_append_fresh (s : State) {n : Nat} (h : s.leftover ≤ n) :
    s.stream n = s.stream s.leftover ++ freshBytes s.x (n - s.leftover) := by
  conv_lhs => rw [← Nat.add_sub_cancel' h]
  rw [State.stream, List.range_add, List.map_append, List.map_map]
  refine congrArg _ (List.map_congr_left fun k _ => ?_)
  simp [State.streamByte]

/-- What phases 2 and 3 leave of a state whose leftover bytes are all served is what R126 says. -/
theorem State.afterFresh_eq (s : State) {n : Nat} (h : s.leftover < n) (o : Fin 65) (ho : o.val = 64) :
    State.afterFresh { s with off := o } (n - s.leftover) = s.afterData n := by
  have ho' : o = 64 := Fin.ext ho
  rw [State.afterFresh, State.afterData, dif_neg (by omega)]
  subst ho'
  dsimp only
  split_ifs <;> rfl

/-- MODIFY in closed form: the buffer is mixed with the stream of R126, and the state is that of R126. So MODIFY always
keeps to the domain of SERVE (R115, U1). -/
theorem State.modify_eq (s : State) (sel : Mixer) (buf : List Byte) :
    s.modify sel buf = some (mixBytes sel buf (s.stream buf.length), s.afterData buf.length) := by
  have hL : s.leftover = 64 - s.off.val := rfl
  have hoff := s.off.isLt
  by_cases hh : s.off.val < 64
  · rw [State.modify, if_pos (by simpa [State.hasLeftover] using hh)]
    by_cases hn : buf.length ≤ s.leftover
    · have hmin : min buf.length s.leftover = buf.length := Nat.min_eq_left hn
      simp only [hmin, List.take_length]
      rw [State.serve_of_le _ _ _ hn]
      simp only [if_true, State.afterData, hn, dif_pos, Option.some.injEq, Prod.mk.injEq, and_true]
      rw [State.stream_of_le _ hn, mixBytes_take]
    · have hmin : min buf.length s.leftover = s.leftover := Nat.min_eq_right (by omega)
      have ht : (buf.take s.leftover).length = s.leftover := by simp; omega
      have hd : (buf.drop s.leftover).length = buf.length - s.leftover := by simp
      have hout : mixBytes sel buf (s.stream buf.length) =
          mixBytes sel (buf.take s.leftover) (s.ovb.toList.drop s.off.val) ++
          mixBytes sel (buf.drop s.leftover) (freshBytes s.x (buf.length - s.leftover)) := by
        rw [s.stream_append_fresh (by omega), ← mixBytes_take_of_eq sel ht (s.ovb.toList.drop s.off.val),
          ← State.stream_of_le s (Nat.le_refl _), ← mixBytes_append sel (by rw [ht, length_stream]),
          List.take_append_drop]
      simp only [hmin]
      rw [State.serve_of_le _ _ _ (by rw [ht]), hout]
      simp only [if_neg (show ¬ s.leftover = buf.length by omega), State.freshPart_eq, hd, ht,
        Option.some.injEq, Prod.mk.injEq, true_and]
      exact s.afterFresh_eq (by omega) _ (by simp; omega)
  · have h0 : s.leftover = 0 := by omega
    have h64 : s.off.val = 64 := by omega
    rw [State.modify, if_neg (by simpa [State.hasLeftover] using Nat.le_of_not_lt hh), State.freshPart_eq,
      s.stream_append_fresh (by omega), h0]
    simp only [Option.some.injEq, Prod.mk.injEq, State.stream, List.range_zero, List.map_nil, List.nil_append,
      Nat.sub_zero, true_and]
    by_cases hn : buf.length = 0
    · simp [hn, State.afterFresh, State.afterData, State.ctr]
    · have := s.afterFresh_eq (n := buf.length) (by omega) s.off h64
      rwa [h0] at this

/-! ## The fields a data command leaves alone -/

@[simp] theorem State.afterData_ready (s : State) (n : Nat) : (s.afterData n).ready = s.ready := by
  unfold State.afterData
  split
  · rfl
  · dsimp only
    split <;> rfl

@[simp] theorem State.afterData_input (s : State) (n : Nat) : (s.afterData n).input = s.input := by
  unfold State.afterData
  split
  · rfl
  · dsimp only
    split <;> rfl

@[simp] theorem State.afterData_output (s : State) (n : Nat) : (s.afterData n).output = s.output := by
  unfold State.afterData
  split
  · rfl
  · dsimp only
    split <;> rfl

/-- A data command changes the register file only in its counter words (R14, R126). -/
theorem State.afterData_x (s : State) (n : Nat) : ∃ c, (s.afterData n).x = withCounter s.x c := by
  unfold State.afterData
  split
  · exact ⟨counterOf s.x, by simp⟩
  · dsimp only
    split <;> exact ⟨_, rfl⟩

/-! ## The mixer of each data command (R54) -/

theorem mixSel_gen : mixSel (opcodeByte .gen) = .overwrite := rfl

theorem mixSel_enc : mixSel (opcodeByte .enc) = .xor := rfl

@[simp] theorem length_freshBuffer (n : Nat) : (freshBuffer n).length = n := by simp [freshBuffer]

end Sys2Proof.Machine
end

