-- ==== Sys2Proof/Laws/Fetch.lean ====
section
/-! SUPPORT. What the block takes from its ports (R55, R56, R160). -/

namespace Sys2Proof.Machine

theorem leadingBytes_append (bs : List Byte) (rest : List Input) :
    leadingBytes (bs.map .byte ++ rest) = bs ++ leadingBytes rest := by
  induction bs with
  | nil => rfl
  | cons b bs ih => simp only [List.map_cons, List.cons_append, leadingBytes, ih]

theorem afterBytes_append (bs : List Byte) (rest : List Input) :
    afterBytes (bs.map .byte ++ rest) = afterBytes rest := by
  induction bs with
  | nil => rfl
  | cons b bs ih => simpa only [List.map_cons, List.cons_append, afterBytes] using ih

/-- What the host has sent is its leading bytes and what comes after them. -/
theorem leadingBytes_afterBytes (input : List Input) :
    (leadingBytes input).map .byte ++ afterBytes input = input := by
  induction input with
  | nil => rfl
  | cons a rest ih =>
    cases a with
    | byte b => simp only [leadingBytes, afterBytes, List.map_cons, List.cons_append, ih]
    | rst => rfl

/-- After the leading bytes comes nothing, or an assertion of RST. -/
theorem afterBytes_cases (input : List Input) :
    afterBytes input = [] ∨ ∃ rest, afterBytes input = .rst :: rest := by
  induction input with
  | nil => exact .inl rfl
  | cons a rest ih =>
    cases a with
    | byte b => exact ih
    | rst => exact .inr ⟨rest, rfl⟩

/-- Everything a step can be: a command, the answer to an illegal header, a reset, or nothing. -/
theorem step_cases (s : State) :
    (∃ i rest, fetch s.input = .instr i rest ∧ step s = exec i { s with input := rest }) ∨
    (∃ e rest, fetch s.input = .illegal e rest ∧ step s = .next (State.rejectHeader { s with input := rest } e)) ∨
    (∃ rest, fetch s.input = .reset rest ∧ step s = .next (State.assertReset { s with input := rest })) ∨
    (fetch s.input = .wait ∧ step s = .next s) := by
  unfold step
  cases fetch s.input with
  | instr i rest => exact .inl ⟨i, rest, rfl, rfl⟩
  | illegal e rest => exact .inr (.inl ⟨e, rest, rfl, rfl⟩)
  | reset rest => exact .inr (.inr (.inl ⟨rest, rfl, rfl⟩))
  | wait => exact .inr (.inr (.inr ⟨rfl, rfl⟩))

end Sys2Proof.Machine
end

