-- ==== Sys2Proof/Laws/PerInstr.lean ====
section
/-! SUPPORT. Facts about every command as syntax, one lemma per constructor. -/

namespace Sys2Proof.Laws.FrameForm

/-- The field that tells a frame's end besides its header: `LEN` of an ENC; no other command needs one (R55). -/
def lenField : Instr → Word
  | .load _ _ _ => 0
  | .gen _ => 0
  | .enc data => BitVec.ofNat 32 data.length
  | .seek _ => 0

/-- A well-formed command is sent as its header and its payload, its header is legal and is read back as it was written,
its frame is as long as R52 says, and the decoder finds that end from the header and the length field (R51, R52, R55,
R57, R59). -/
def Statement (i : Instr) : Prop :=
  i.wellFormed = true →
    encode i = opcodeByte i.opcode :: i.arg :: 0 :: 0 :: payloadBytes i ∧
    decodeHeader (le32 (opcodeByte i.opcode) i.arg 0 0) = .ok ⟨i.opcode, i.arg⟩ ∧
    (encode i).length = i.frameLength ∧
    frameEnd (le32 (opcodeByte i.opcode) i.arg 0 0) (lenField i) = i.frameLength

theorem load (key : List Byte) (nonce : Vector Byte 8) (ctr0 : Dword) : Statement (.load key nonce ctr0) := by
  intro h
  refine ⟨rfl, decodeHeader_headerBytes _, length_encode _, ?_⟩
  have hk : key.length ≤ 255 := of_decide_eq_true h
  rw [frameEnd, decodeHeader_headerBytes]
  simp only [Instr.opcode, Instr.arg, Instr.frameLength, BitVec.toNat_ofNat]
  omega

theorem gen (len : Word) : Statement (.gen len) := fun _ =>
  ⟨rfl, decodeHeader_headerBytes _, length_encode _, by rw [frameEnd, decodeHeader_headerBytes]; rfl⟩

theorem enc (data : List Byte) : Statement (.enc data) := by
  intro h
  refine ⟨rfl, decodeHeader_headerBytes _, length_encode _, ?_⟩
  have hd : data.length ≤ 4294967295 := of_decide_eq_true h
  rw [frameEnd, decodeHeader_headerBytes]
  simp only [Instr.opcode, lenField, Instr.frameLength, BitVec.toNat_ofNat]
  omega

theorem seek (value : Dword) : Statement (.seek value) := fun _ =>
  ⟨rfl, decodeHeader_headerBytes _, length_encode _, by rw [frameEnd, decodeHeader_headerBytes]; rfl⟩

end Sys2Proof.Laws.FrameForm
end

