-- ==== Sys2Proof/Laws/Stream.lean ====
section
/-! SUPPORT. The bytes a data command uses and the bytes the next one uses (R126, R127): the stream of a state, and the
stream of the state it leaves. -/

namespace Sys2Proof.Machine

/-- The cursor after a data command (R126). -/
theorem State.afterData_off_val (s : State) (n : Nat) : (s.afterData n).off.val =
    if n ≤ s.leftover then s.off.val + n
    else if (n - s.leftover) % 64 = 0 then 64 else (n - s.leftover) % 64 := by
  unfold State.afterData
  split
  · rfl
  · dsimp only
    split
    · rw [if_neg (by omega)]
    · rw [if_pos (by omega)]
      rfl

/-- A request of no bytes leaves the state as it is. -/
@[simp] theorem State.afterData_zero (s : State) : s.afterData 0 = s := by
  unfold State.afterData
  rw [dif_pos (Nat.zero_le _)]
  rfl

/-- A leftover byte is a byte of the stream. -/
theorem State.ovb_eq_streamByte (s : State) (j : Nat) (hj : j < 64) (h : s.off.val ≤ j) :
    s.ovb[j] = s.streamByte (j - s.off.val) := by
  unfold State.streamByte
  rw [dif_pos (by unfold State.leftover; omega)]
  simp only [Nat.add_sub_cancel' h]

/-- The stream after a request of `a` bytes is the stream before it, from byte `a` on (R127). -/
theorem State.streamByte_afterData (s : State) (a k : Nat) :
    (s.afterData a).streamByte k = s.streamByte (a + k) := by
  have hl : s.leftover = 64 - s.off.val := rfl
  have ho := s.off.isLt
  by_cases h : a ≤ s.leftover
  · have e : s.afterData a = { s with off := ⟨s.off.val + a, by omega⟩ } := by
      unfold State.afterData
      rw [dif_pos h]
    have hl' : (s.afterData a).leftover = s.leftover - a := by
      rw [e]
      unfold State.leftover
      simp only
      omega
    unfold State.streamByte
    by_cases hk : k < s.leftover - a
    · rw [dif_pos (by omega), dif_pos (by omega)]
      simp only [e]
      congr 1
      omega
    · rw [dif_neg (by omega), dif_neg (by omega), hl', e]
      simp only
      congr 1
      omega
  · have hm : s.afterData a =
        if 0 < (a - s.leftover) % 64 then
          { s with
            x := withCounter s.x (s.ctr + BitVec.ofNat 64 ((a - s.leftover) / 64) + 1)
            off := ⟨(a - s.leftover) % 64, by omega⟩
            ovb := keystreamBlock s.x (s.ctr + BitVec.ofNat 64 ((a - s.leftover) / 64)) }
        else
          { s with
            x := withCounter s.x (s.ctr + BitVec.ofNat 64 ((a - s.leftover) / 64))
            off := 64 } := by
      unfold State.afterData
      rw [dif_neg h]
    unfold State.streamByte
    conv_rhs => rw [dif_neg (by omega)]
    by_cases hr : 0 < (a - s.leftover) % 64
    · rw [if_pos hr] at hm
      have hl' : (s.afterData a).leftover = 64 - (a - s.leftover) % 64 := by
        rw [hm]
        rfl
      by_cases hk : k < 64 - (a - s.leftover) % 64
      · rw [dif_pos (by omega)]
        simp only [hm, freshByte]
        have e1 : (a + k - s.leftover) / 64 = (a - s.leftover) / 64 := by omega
        have e2 : (a + k - s.leftover) % 64 = (a - s.leftover) % 64 + k := by omega
        simp only [e1, e2, State.ctr]
      · rw [dif_neg (by omega), hl']
        simp only [hm]
        have e := freshByte_withCounter_add s.x ((a - s.leftover) / 64 + 1) (k - (64 - (a - s.leftover) % 64))
        rw [BitVec.ofNat_add, ← BitVec.add_assoc] at e
        exact Eq.trans e (congrArg (freshByte s.x) (by omega))
    · rw [if_neg hr] at hm
      have hl' : (s.afterData a).leftover = 0 := by
        rw [hm]
        rfl
      rw [dif_neg (by omega), hl']
      simp only [hm]
      have e := freshByte_withCounter_add s.x ((a - s.leftover) / 64) k
      exact Eq.trans e (congrArg (freshByte s.x) (by omega))

/-- The bytes of a request are those of its first part and then those of the rest. -/
theorem State.stream_add (s : State) (a b : Nat) :
    s.stream (a + b) = s.stream a ++ (s.afterData a).stream b := by
  simp only [State.stream, List.range_add, List.map_append, List.map_map]
  refine congrArg _ (List.map_congr_left fun k _ => ?_)
  exact (s.streamByte_afterData a k).symm

/-- The stream depends on the register file, the cursor and the leftover bytes only. -/
theorem State.streamByte_congr {s u : State} (hx : s.x = u.x) (ho : s.off = u.off)
    (h : ∀ (j : Nat) (hj : j < 64), s.off.val ≤ j → s.ovb[j] = u.ovb[j]) (k : Nat) :
    s.streamByte k = u.streamByte k := by
  have hl : s.leftover = u.leftover := by simp [State.leftover, ho]
  unfold State.streamByte
  by_cases hk : k < s.leftover
  · rw [dif_pos hk, dif_pos (by omega)]
    rw [h _ (by unfold State.leftover at hk; omega) (by omega)]
    simp only [ho]
  · rw [dif_neg hk, dif_neg (by omega), hx, hl]

end Sys2Proof.Machine
end

