-- ==== Sys2Proof/Tests/Slice0.lean ====
section
/-! SUPPORT. The model's own tests: ill-formed terms, worked frames, worked vectors of one step each, every expected
result copied from spec/30_encoding.md or spec/95_test_vectors.md; and for each statement that has hypotheses, values that
meet them all. -/

open Sys2Proof Sys2Proof.Machine

namespace Sys2Proof.Tests

/-! ## Helpers -/

/-- A value read off the next state of an outcome, if there is one. -/
def after {α : Type} (o : Host.Outcome State Fault Refusal) (f : State → α) : Option α :=
  match o with
  | .next t => some (f t)
  | .fault _ => none
  | .refused _ => none

def z8 : Vector Byte 8 := Vector.replicate 8 0

def z16 : List Byte := List.replicate 16 0

/-- `00 01 … 1f`. -/
def count32 : List Byte := (List.range 32).map (BitVec.ofNat 8)

def nonceF : Vector Byte 8 := #v[0xf0, 0xf1, 0xf2, 0xf3, 0xf4, 0xf5, 0xf6, 0xf7]

/-- The matrix of B1 (95_test_vectors.md section 3), with counter words `lo` and `hi`. -/
def matrixB1 (lo hi : Word) : StateMatrix :=
  #v[0x61707865, 0, 0, 0, 0, 0x3120646e, 0, 0, lo, hi, 0x79622d36, 0, 0, 0, 0, 0x6b206574]

/-- The state after `LOAD key=<Z16> nonce=<Z8> ctr=0`, its response taken. -/
def fresh : State := { State.reset with x := matrixB1 0 0, ready := true }

/-- The state of F4 (95_test_vectors.md section 4), after `GEN 10`: `CTR = 1`, `OFF = 10`, `OVB` = B1. -/
def partway : State := { fresh with x := matrixB1 1 0, off := 10, ovb := keystreamBlock (matrixB1 0 0) 0 }

/-- The matrix `x[i] = i`. -/
def countMatrix : StateMatrix := #v[0, 1, 2, 3, 4, 5, 6, 7, 8, 9, 10, 11, 12, 13, 14, 15]

/-! ## Ill-formed terms, one for each check -/

theorem test_wellFormed_refuses_long_key : Instr.wellFormed (.load (List.replicate 256 0) z8 0) = false := by
  rw [Instr.wellFormed, List.length_replicate]
  decide

theorem test_wellFormed_admits_longest_key : Instr.wellFormed (.load (List.replicate 255 0) z8 0) = true := by
  rw [Instr.wellFormed, List.length_replicate]
  decide

theorem test_wellFormed_refuses_long_data : Instr.wellFormed (.enc (List.replicate 4294967296 0)) = false := by
  rw [Instr.wellFormed, List.length_replicate]
  decide

theorem test_wellFormed_admits_longest_data : Instr.wellFormed (.enc (List.replicate 4294967295 0)) = true := by
  rw [Instr.wellFormed, List.length_replicate]
  decide

/-! ## Decoding (30_encoding.md section 8; E1 to E18 of 95_test_vectors.md) -/

theorem test_decode_load_32 :
    decode ([0x01, 0x20, 0x00, 0x00] ++
      [0x00, 0x01, 0x02, 0x03, 0x04, 0x05, 0x06, 0x07, 0x08, 0x09, 0x0a, 0x0b, 0x0c, 0x0d, 0x0e, 0x0f,
       0x10, 0x11, 0x12, 0x13, 0x14, 0x15, 0x16, 0x17, 0x18, 0x19, 0x1a, 0x1b, 0x1c, 0x1d, 0x1e, 0x1f] ++
      [0xf0, 0xf1, 0xf2, 0xf3, 0xf4, 0xf5, 0xf6, 0xf7] ++ [0xef, 0xcd, 0xab, 0x89, 0x67, 0x45, 0x23, 0x01]) =
    .instr (.load count32 nonceF 0x0123456789abcdef) [] := by decide

theorem test_decode_load_no_key :
    decode ([0x01, 0x00, 0x00, 0x00] ++ List.replicate 8 0 ++ [0x07, 0, 0, 0, 0, 0, 0, 0]) =
    .instr (.load [] z8 7) [] := by decide

theorem test_decode_gen_longest : decode [0x02, 0, 0, 0, 0xff, 0xff, 0xff, 0xff] = .instr (.gen 4294967295) [] := by decide

theorem test_decode_gen_order : decode [0x02, 0, 0, 0, 0x01, 0x02, 0, 0, 0xaa] = .instr (.gen 0x201) [0xaa] := by decide

theorem test_decode_enc : decode [0x03, 0, 0, 0, 0x03, 0, 0, 0, 0x61, 0x62, 0x63, 0x09] =
    .instr (.enc [0x61, 0x62, 0x63]) [0x09] := by decide

theorem test_decode_enc_empty : decode [0x03, 0, 0, 0, 0, 0, 0, 0] = .instr (.enc []) [] := by decide

theorem test_decode_seek : decode [0x04, 0, 0, 0, 0xef, 0xcd, 0xab, 0x89, 0x67, 0x45, 0x23, 0x01] =
    .instr (.seek 0x0123456789abcdef) [] := by decide

theorem test_decode_illegal :
    decode [0x00, 0, 0, 0] = .illegal .reservedOpcode [] ∧ decode [0x05, 0, 0, 0] = .illegal .reservedOpcode [] ∧
    decode [0xff, 0, 0, 0] = .illegal .reservedOpcode [] ∧ decode [0x02, 0x01, 0, 0] = .illegal .argumentField [] ∧
    decode [0x04, 0, 0, 0x80] = .illegal .reservedField [] ∧
    decode [0x01, 0x10, 0x01, 0] = .illegal .reservedField [] := by decide

theorem test_decode_incomplete :
    decode [0x02, 0, 0] = .incomplete ∧ decode [0x03, 0, 0, 0, 0x02, 0, 0, 0, 0xaa] = .incomplete := by decide

/-- The words of the opcode table, 32 bits each; every later bit is 0. -/
theorem test_table_words :
    decodeTableWord 32 0x00000001 = some (.load [] z8 0) ∧ decodeTableWord 32 0x00001001 = some (.load z16 z8 0) ∧
    decodeTableWord 32 0x00000002 = some (.gen 0) ∧ decodeTableWord 32 0x00000003 = some (.enc []) ∧
    decodeTableWord 32 0x00000004 = some (.seek 0) ∧ decodeTableWord 64 0x0000004000000002 = some (.gen 64) ∧
    decodeTableWord 32 0x00000005 = none := by decide

/-! ## The mixing datapath (95_test_vectors.md section 2) -/

theorem test_rotl32 :
    rotl32 0xc0a8787e 5 = 0x150f0fd8 ∧ rotl32 0x12345678 9 = 0x68acf024 ∧ rotl32 0x12345678 18 = 0x59e048d1 ∧
    add32 0xc0a8787e 0x9fd1161d = 0x60798e9b := by decide

theorem test_quarterRound_one_bit :
  quarterRound 0x00000001 0x00000000 0x00000000 0x00000000 =
    ⟨0x08008145, 0x00000080, 0x00010200, 0x20500000⟩ ∧
  quarterRound 0x00000000 0x00000001 0x00000000 0x00000000 =
    ⟨0x88000100, 0x00000001, 0x00000200, 0x00402000⟩ ∧
  quarterRound 0x00000000 0x00000000 0x00000001 0x00000000 =
    ⟨0x80040000, 0x00000000, 0x00000001, 0x00002000⟩ ∧
  quarterRound 0x00000000 0x00000000 0x00000000 0x00000001 =
    ⟨0x00048044, 0x00000080, 0x00010000, 0x20100001⟩ := by decide

theorem test_quarterRound_general :
  quarterRound 0xffffffff 0xffffffff 0xffffffff 0xffffffff =
    ⟨0xf8038143, 0x00000080, 0xffff01ff, 0x1fb00000⟩ ∧
  quarterRound 0x80000000 0x00000000 0x00000000 0x80000000 =
    ⟨0x84020080, 0x00000000, 0x00000100, 0x80200000⟩ ∧
  quarterRound 0xe7e8c006 0xc4f9417d 0x6479b4b2 0x68c67137 =
    ⟨0xe876d72b, 0x9361dfd5, 0xf1460244, 0x948541a3⟩ ∧
  quarterRound 0xd3917c5b 0x55f1c407 0x52a58a7a 0x8f887a3b =
    ⟨0x3e2f308c, 0xd90a8f36, 0x6ab2a923, 0x2883524c⟩ := by decide

/-- M1. -/
theorem test_columnRound : columnRound countMatrix =
    #v[0x20560736, 0xc3e2c001, 0x00103002, 0x00000d03, 0x00000604, 0x703b0fa6, 0x07020004, 0x001a2407,
    0x000c0808, 0x00000309, 0xc0181c42, 0x46214008, 0x81c1800d, 0x00061c0d, 0x0000080e, 0x903d18e2] := by
    decide +kernel

/-- M2. -/
theorem test_rowRound : rowRound countMatrix =
    #v[0x881581cd, 0x00000181, 0x00030202, 0x60706003, 0x2351a005, 0xd8308d6f, 0x00000486, 0x00091607,
    0x00132a08, 0x6672600b, 0x284d9a1c, 0x0000098b, 0x00000e8c, 0x001d360d, 0xa893200d, 0x586aa2ce] := by
    decide +kernel

/-- M3. -/
theorem test_doubleRound : doubleRound countMatrix =
    #v[0x5ff84399, 0xe8e8dc91, 0x7dd7be10, 0x135421db, 0x96c9d24f, 0xbdbf75d0, 0x1a88d53c, 0x87d3e112,
    0x8e085c1c, 0xe840980f, 0x10b5c561, 0x4a2ee5e8, 0x9f51f845, 0x1e245252, 0xc952ffa0, 0xd7f6853f] := by
    decide +kernel

/-- H2. -/
theorem test_core20 : (core20 countMatrix).toList =
    [0xe0, 0xeb, 0xa0, 0xe1, 0x02, 0x2a, 0x03, 0x06, 0x24, 0x99, 0xc1, 0x1e, 0x6e, 0xb3, 0xff, 0x91, 0x35,
    0x83, 0x06, 0x83, 0x2c, 0x6e, 0xc0, 0xa7, 0x67, 0x38, 0xb4, 0x75, 0x7e, 0x51, 0xf8, 0xcc, 0x20, 0xa8,
    0x1b, 0xf6, 0x72, 0x89, 0x1b, 0xab, 0xf6, 0xd7, 0x9e, 0xec, 0xb9, 0x36, 0x86, 0x47, 0xad, 0xd6, 0x5d,
    0x74, 0x2d, 0x72, 0xbe, 0x8b, 0xdf, 0x9b, 0xcc, 0xa1, 0xf0, 0x0c, 0xc7, 0x5f] := by decide +kernel

/-! ## The block generator (95_test_vectors.md section 3) -/

/-- The corner cases of CINC. -/
theorem test_counterInc :
    counterInc (matrixB1 0xfffffffe 0) = matrixB1 0xffffffff 0 ∧
    counterInc (matrixB1 0xffffffff 0x01234567) = matrixB1 0 0x01234568 ∧
    counterInc (matrixB1 0xffffffff 0xffffffff) = matrixB1 0 0 := by decide

/-- SCTR from B1 gives the matrix of B5. -/
theorem test_sctr : (fresh.sctr 0x100000000).x = matrixB1 0 1 := by decide

/-- PBLK with the XOR mixer and a destination of 64 bytes `ff`. -/
theorem test_pblk_xor :
    (fresh.pblk .xor (List.replicate 64 0xff)).1.take 8 = [0x9a, 0xec, 0x52, 0x51, 0x30, 0x14, 0xed, 0xb3] ∧
    (fresh.pblk .xor (List.replicate 64 0xff)).2.x = matrixB1 1 0 := by decide +kernel

/-- LOAD with a 32-byte key: the matrix of B9. -/
theorem test_load_32 :
    after (exec (.load count32 nonceF 0x0123456789abcdef) partway) (fun t => (t.x, t.off, t.ready, t.rsp)) =
    some (
      #v[0x61707865, 0x03020100, 0x07060504, 0x0b0a0908, 0x0f0e0d0c, 0x3320646e, 0xf3f2f1f0, 0xf7f6f5f4,
      0x89abcdef, 0x01234567, 0x79622d32, 0x13121110, 0x17161514, 0x1b1a1918, 0x1f1e1d1c, 0x6b206574],
      64, true, [.ok]) := by decide +kernel

/-- LOAD with a 15-byte key: answered `0x01`, the instance stays (P4, row 12). -/
theorem test_load_15 :
    after (exec (.load (List.replicate 15 0) z8 0) partway) (fun t => (t.x, t.off, t.ready, t.rsp)) =
    some (matrixB1 1 0, 10, true, [.invalidKeySize]) := by decide +kernel

/-! ## The overflow buffer and the façade (95_test_vectors.md sections 4 and 5) -/

theorem test_mix :
    mix .overwrite 0x61 0x65 = 0x65 ∧ mix .xor 0x61 0x65 = 0x04 ∧ mix .xor 0 0x65 = 0x65 ∧ mix .xor 0xff 0x65 = 0x9a := by
  decide

/-- SERVE of six bytes from `OFF = 5`, XOR mixer; and of five from `OFF = 60`, outside the domain. -/
theorem test_serve :
    (State.serve { partway with off := 5 } .xor [0x20, 0x77, 0x6f, 0x72, 0x6c, 0x64]).map (fun p => (p.1, p.2.off)) =
      some ([0xcb, 0x65, 0x23, 0x6e, 0xd2, 0x0f], 11) ∧
    (State.serve { partway with off := 60 } .overwrite (List.replicate 5 0)).isNone = true := by decide +kernel

/-- F2: B1, the fast path. -/
theorem test_gen_64 : after (exec (.gen 64) fresh) (fun t => (t.dout, t.off, t.x)) =
    some (
      [0x65, 0x13, 0xad, 0xae, 0xcf, 0xeb, 0x12, 0x4c, 0x1c, 0xbe, 0x6b, 0xda, 0xef, 0x69, 0x0b, 0x4f,
      0xfb, 0x00, 0xb0, 0xfc, 0xac, 0xe3, 0x3c, 0xe8, 0x06, 0x79, 0x2b, 0xb4, 0x14, 0x80, 0x19, 0x98,
      0x34, 0xbf, 0xb1, 0xcf, 0xdd, 0x09, 0x58, 0x02, 0xc6, 0xe9, 0x5e, 0x25, 0x10, 0x02, 0x98, 0x9a,
      0xc2, 0x2a, 0xe5, 0x88, 0xd3, 0x2a, 0xe7, 0x93, 0x20, 0xd9, 0xbd, 0x77, 0x32, 0xe0, 0x03, 0x38],
      64, matrixB1 1 0) := by decide +kernel

/-- F4: leftover bytes first, then a refill; `OFF` comes back to 10. -/
theorem test_gen_across : after (exec (.gen 64) partway) (fun t => ((t.dout.drop 52).take 6, t.off, t.x)) =
    some ([0x03, 0x38, 0xd0, 0x6a, 0xcb, 0xb0], 10, matrixB1 2 0) := by decide +kernel

/-- F8. -/
theorem test_enc : after (exec (.enc [0x61, 0x62, 0x63]) fresh) (fun t => (t.dout, t.rsp, t.off, t.x)) =
    some ([0x04, 0x71, 0xce], [.ok], 3, matrixB1 1 0) := by decide +kernel

/-- F7: the XOR mixer through phases 2 and 3. -/
theorem test_enc_70 : after (exec (.enc (List.replicate 70 0xff)) fresh) (fun t => (t.dout.drop 62, t.off, t.x)) =
    some ([0xfc, 0xc7, 0x2f, 0x95, 0x34, 0x4f, 0x71, 0xa0], 6, matrixB1 2 0) := by decide +kernel

/-- K2, its SEEK: the counter words change, `OFF` does not. -/
theorem test_seek : after (exec (.seek 0x100000000) partway) (fun t => (t.x, t.off, t.dout, t.rsp)) =
    some (matrixB1 0 1, 10, [], [.ok]) := by decide +kernel

/-- P4, row 3: SEEK with no instance. -/
theorem test_seek_not_ready : exec (.seek 5) State.reset =
    .next { State.reset with output := [.rsp .notReady] } := rfl

/-! ## The step (P4 of 95_test_vectors.md section 8) -/

/-- Row 5: four bytes are consumed. -/
theorem test_step_illegal :
    after (step (partway.sendBytes [0x05, 0, 0, 0, 0x02])) (fun t => (t.input, t.rsp, t.off)) =
    some ([.byte 0x02], [.illegalCmd], 10) := by decide +kernel

/-- Row 2: the whole frame of an ENC is consumed and dropped. -/
theorem test_step_enc_not_ready :
    after (step (State.reset.sendBytes [0x03, 0, 0, 0, 0x02, 0, 0, 0, 0xaa, 0xbb])) (fun t => (t.input, t.output)) =
    some ([], [.rsp .notReady]) := by decide

/-- Row 17, after part of a frame: RESET drops it, and READY is cleared. -/
theorem test_step_reset :
    after (step (((partway.sendBytes [0x02, 0, 0]).sendReset).sendBytes [0x04])) (fun t => (t.input, t.ready, t.off)) =
    some ([.byte 0x04], false, 64) := by decide +kernel

/-- What the host places, the next step runs. -/
theorem test_step_placed : after (step (State.reset.withFetchWord 32 0x00001001)) (fun t => (t.x, t.ready, t.input)) =
    some (matrixB1 0 0, true, []) := by decide +kernel

/-! ## The textual form (R60, R61; the commands of 95_test_vectors.md section 8) -/

theorem test_parse_lines :
    parseLine ['E', 'N', 'C', ' ', '6', '1', '6', '2', '6', '3', ' ', '#', ' ', 'x'] = some (.enc [0x61, 0x62, 0x63]) ∧
    parseLine ['G', 'E', 'N', ' ', '6', '4'] = some (.gen 64) ∧
    parseLine ['S', 'E', 'E', 'K', ' ', '0', 'x', '1', '0', '0', '0', '0', '0', '0', '0', '0'] =
      some (.seek 0x100000000) ∧
    parseLine ['R', 'E', 'S', 'E', 'T'] = some .reset ∧ parseLine ['E', 'N', 'C', ' ', '6'] = none ∧
    parseLine ['G', 'E', 'N', 'B', 'I', 'G', ' ', '4', '2', '9', '4', '9', '6', '7', '2', '9', '6'] =
      some (.genBig 4294967296) := by decide +kernel

theorem test_parse_load :
    parseWords [['L', 'O', 'A', 'D'], ['k', 'e', 'y', '=', '0', '0', 'f', 'F'],
      ['n', 'o', 'n', 'c', 'e', '='] ++ List.replicate 16 '0', ['c', 't', 'r', '=', '9']] =
    some (.load [0x00, 0xff] z8 9) := by decide +kernel

/-- `2^32 = 1·(2^32 - 1) + 1`. -/
theorem test_genBig : genBigCommands 4294967296 = [.gen 0xffffffff, .gen 1] := by decide

/-! ## Witnesses: for each statement with hypotheses, values that meet them all, at the ends of their ranges -/

theorem witness_decodeReadsBackEveryFrame :
    Instr.wellFormed (.load (List.replicate 255 0) z8 0) = true ∧ Instr.wellFormed (.load [] z8 0) = true ∧
    Instr.wellFormed (.gen 0xffffffff) = true ∧ Instr.wellFormed (.enc (List.replicate 4294967295 0)) = true ∧
    Instr.wellFormed (.seek 0) = true :=
  ⟨test_wellFormed_admits_longest_key, rfl, rfl, test_wellFormed_admits_longest_data, rfl⟩

theorem witness_decodedBytesAreTheFrame : decode [0x02, 0, 0, 0, 0x40, 0, 0, 0, 0x09] = .instr (.gen 64) [0x09] := by
  decide

theorem witness_stepRunsDecodedFrame :
    decode (leadingBytes ((fresh.sendBytes [0x02, 0, 0, 0, 0x40, 0, 0, 0]).sendReset).input) = .instr (.gen 64) [] := by
  decide

theorem witness_stepRunsEncodedFrame : Instr.wellFormed (.enc [0x61]) = true := rfl

theorem witness_placedWordRunsNext : decodeTableWord 32 0x00001001 = some (.load z16 z8 0) := by decide

/-- One header of each kind the hypothesis admits, and one that is illegal twice over. -/
theorem witness_illegalHeaderAnswered :
    (fresh.sendBytes [0x05, 0, 0, 0]).input = .byte 0x05 :: .byte 0 :: .byte 0 :: .byte 0 :: [] ∧
    ((0x05 : Byte) ≠ 0x01 ∧ (0x05 : Byte) ≠ 0x02 ∧ (0x05 : Byte) ≠ 0x03 ∧ (0x05 : Byte) ≠ 0x04) ∧
    (fresh.sendBytes [0x04, 0, 0, 0x80]).input = .byte 0x04 :: .byte 0 :: .byte 0 :: .byte 0x80 :: [] ∧
    ((0x80 : Byte) ≠ 0) ∧
    (fresh.sendBytes [0x02, 0x01, 0x01, 0, 0x07]).input =
      .byte 0x02 :: .byte 0x01 :: .byte 0x01 :: .byte 0 :: [.byte 0x07] ∧
    ((0x01 : Byte) ≠ 0) := by decide

theorem partial_none : PartialFrame [] := .inl (by decide)

theorem partial_reserved : PartialFrame [0x05, 0, 0] := .inl (by decide)

theorem partial_gen : PartialFrame [0x02, 0, 0, 0, 0x40, 0, 0] :=
  .inr ⟨.gen 64, [0], rfl, by decide, by decide⟩

theorem witness_incompleteFrameWaits :
    PartialFrame [0x02, 0, 0, 0, 0x40, 0, 0] ∧
    (fresh.sendBytes [0x02, 0, 0, 0, 0x40, 0, 0]).input = [0x02, 0, 0, 0, 0x40, 0, 0].map .byte :=
  ⟨partial_gen, rfl⟩

theorem witness_resetDropsPartialFrame :
    (PartialFrame [0x05, 0, 0] ∧
      ((partway.sendBytes [0x05, 0, 0]).sendReset).input = [0x05, 0, 0].map .byte ++ .rst :: []) ∧
    PartialFrame [] ∧ partway.sendReset.input = ([] : List Byte).map .byte ++ .rst :: [] :=
  ⟨⟨partial_reserved, rfl⟩, partial_none, rfl⟩

theorem witness_framesComposeInOrder :
    ∀ i ∈ [Instr.load z16 z8 0, .gen 3, .enc [0x61], .seek 5], i.wellFormed = true := by decide

theorem witness_rotateMovesEachBit : 1 ≤ 1 ∧ 1 ≤ 31 ∧ 31 ≤ 31 ∧ 0 < 32 ∧ 31 < 32 := by decide

theorem witness_roundsStartAtTheDiagonal : 0 < 4 ∧ 3 < 4 := by decide

theorem witness_rowRoundIsTransposedColumnRound :
    ∀ (i : Nat) (_ : i < 16) (_ : 4 * (i % 4) + i / 4 < 16),
      (#v[0, 4, 8, 12, 1, 5, 9, 13, 2, 6, 10, 14, 3, 7, 11, 15] : StateMatrix)[i] =
        countMatrix[4 * (i % 4) + i / 4] := by
  intro i h hT
  interval_cases i <;> rfl

theorem witness_columnRoundStaleWords : 15 < 16 ∧ 15 % 4 ≠ 0 ∧ 0 < 16 ∧ 0 % 4 ≠ 1 ∧ 15 % 4 ≠ 1 ∧ 1 % 4 ≠ 0 := by decide

theorem witness_cacheIsUnobservable :
    ∀ (i : Nat) (_ : i < 16), (columnRound countMatrix)[i] = (columnRound countMatrix)[i] := fun _ _ => rfl

theorem witness_blockBytesAreLittleEndian :
    15 < 16 ∧ 3 < 4 ∧ 7 < 8 ∧ bytesLe32 0x04030201 = [0x01, 0x02, 0x03, 0x04] := by decide

theorem witness_loadBuildsInstanceOrNothing :
    z16.length = 16 ∧ count32.length = 32 ∧ (List.replicate 15 (0 : Byte)).length ≠ 16 ∧
    (List.replicate 15 (0 : Byte)).length ≠ 32 := by decide

/-- A matrix whose low counter word wraps, one whose does not, and a word that is kept. -/
theorem witness_counterIncrementCarries :
    (matrixB1 0xffffffff 7)[8] + 1 = 0 ∧ (matrixB1 0xfffffffe 7)[8] + 1 ≠ 0 ∧ 15 < 16 ∧ 15 ≠ 8 ∧ 15 ≠ 9 := by decide

theorem witness_seekEqualsFreshInit : initMatrix z16 z8 0 = some fresh.x := by decide

theorem length_dataBytes_replicate (m : Nat) (n : Word) :
    ((List.replicate m (Instr.gen n)).flatMap Instr.dataBytes).length = m * n.toNat := by
  induction m with
  | zero => simp
  | succ m ih =>
    rw [List.replicate_succ, List.flatMap_cons, List.length_append, ih, Instr.dataBytes, List.length_replicate, Nat.succ_mul,
      Nat.add_comm]

/-- `2^39` requests of `2^31` bytes, from a state with an empty buffer and from one with the leftover bytes of the block
before `CTR`. -/
theorem witness_keystreamRepeatsAfterWrap :
    (fresh.ready = true ∧ fresh.off ≠ 0 ∧ ¬ fresh.off.val < 64) ∧
    (partway.ready = true ∧ partway.off ≠ 0 ∧ partway.off.val < 64 ∧
      partway.ovb = keystreamBlock partway.x (partway.ctr - 1)) ∧
    (∀ i ∈ List.replicate (2 ^ 39) (Instr.gen 0x80000000), i.isData = true) ∧
    ((List.replicate (2 ^ 39) (Instr.gen 0x80000000)).flatMap Instr.dataBytes).length = 2 ^ 70 ∧ 10 ≤ 63 ∧ 63 < 64 := by
  refine ⟨⟨rfl, by decide, by decide⟩, ⟨rfl, by decide, by decide, ?_⟩, ?_, ?_, by decide, by decide⟩
  · show keystreamBlock (matrixB1 0 0) 0 = keystreamBlock (matrixB1 1 0) (counterOf (matrixB1 1 0) - 1)
    rw [show counterOf (matrixB1 1 0) - 1 = 0 from rfl, show matrixB1 1 0 = withCounter (matrixB1 0 0) 1 from rfl,
      keystreamBlock_withCounter]
  · intro i hi
    rw [List.eq_of_mem_replicate hi]
    rfl
  · rw [length_dataBytes_replicate]
    decide

/-- Two requests inside the domain, of no byte and of every byte left, and one outside it. -/
theorem witness_serveHandsOutLeftover :
    ([] : List Byte).length ≤ partway.leftover ∧ (List.replicate 54 (0 : Byte)).length ≤ partway.leftover ∧
    partway.leftover < (List.replicate 55 (0 : Byte)).length ∧ 53 < 54 ∧ partway.off.val + 53 < 64 := by decide +kernel

/-- States with an instance: with an empty buffer, and with leftover bytes. -/
theorem witness_genEmitsKeystream : fresh.ready = true ∧ partway.ready = true := ⟨rfl, rfl⟩

theorem witness_encEmitsDataXorKeystream : fresh.ready = true ∧ partway.ready = true := ⟨rfl, rfl⟩

theorem witness_seekWritesCounterOnly :
    partway.ready = true ∧ State.reset.ready = false ∧ 15 < 16 ∧ 15 ≠ 8 ∧ 15 ≠ 9 :=
  ⟨rfl, rfl, by decide, by decide, by decide⟩

theorem witness_notReadyChangesNothing :
    (State.reset.sendBytes (encode (.enc [0xaa]))).ready = false ∧ Instr.wellFormed (.enc [0xaa]) = true ∧
    Instr.opcode (.enc [0xaa]) ≠ .load ∧
    (State.reset.sendBytes (encode (.enc [0xaa]))).input = (encode (.enc [0xaa])).map .byte ++ [] := by decide

theorem witness_wrongKeyLengthRefused :
    (List.replicate 33 (0 : Byte)).length ≤ 255 ∧ (List.replicate 33 (0 : Byte)).length ≠ 16 ∧
    (List.replicate 33 (0 : Byte)).length ≠ 32 ∧
    (fresh.sendBytes (encode (.load (List.replicate 33 0) z8 7))).input =
      (encode (.load (List.replicate 33 0) z8 7)).map .byte ++ [] := by decide

theorem witness_lastSeekCounts : fresh.ready = true := rfl

theorem witness_blocksProducedAndCursor : 15 < 16 ∧ 15 ≠ 8 ∧ 15 ≠ 9 ∧ 0 ≠ 8 ∧ 0 ≠ 9 := by decide

theorem witness_mixersReadTheirOwnByteOnly : ([0x61, 0x62] : List Byte).length = 2 := rfl

/-- GEN of one block, and of none. -/
theorem witness_fastPathLeavesBuffer :
    Instr.isData (.gen 64) = true ∧ fresh.ready = true ∧ fresh.off = 64 ∧ (Instr.dataBytes (.gen 64)).length % 64 = 0 ∧
    (Instr.dataBytes (.enc [])).length % 64 = 0 := by decide

theorem witness_drainDoesNotRefill : fresh.ready = true ∧ partway.ready = true := ⟨rfl, rfl⟩

theorem witness_zeroLengthIsNoOp : fresh.ready = true ∧ partway.ready = true := ⟨rfl, rfl⟩

/-- The partition R127 names, and one whose sum is the largest request. -/
theorem witness_genPartitionIsOneRequest :
    partway.ready = true ∧ (([7, 252, 679, 86] : List Word).map BitVec.toNat).sum < 2 ^ 32 ∧
    (([0xfffffffe, 0x00000001] : List Word).map BitVec.toNat).sum < 2 ^ 32 := ⟨rfl, by decide, by decide⟩

theorem witness_genPartition_kept_byte : 10 ≤ 63 ∧ 63 < 64 := by decide

theorem witness_encPartitionIsOneRequest : partway.ready = true := rfl

theorem witness_loadedInstanceStreamsInOrder :
    (z16.length = 16 ∨ z16.length = 32) ∧ (count32.length = 16 ∨ count32.length = 32) ∧
    ∀ i ∈ [Instr.gen 7, .enc [0x61], .gen 0], i.isData = true := by decide

/-- Two states that differ in served bytes only. -/
theorem witness_encryptThenDecrypt :
    partway.ready = true ∧ (State.ready { partway with ovb := partway.ovb.set 0 0 }) = true ∧
    ∀ (j : Nat) (h : j < 64), partway.off.val ≤ j → partway.ovb[j] = (partway.ovb.set 0 0)[j] := by
  refine ⟨rfl, rfl, fun j h ho => ?_⟩
  have : (10 : Nat) ≤ j := ho
  rw [Vector.getElem_set_ne _ _ (by omega)]

/-- The clause with an empty buffer, and the clause with leftover bytes at each end of its range. -/
theorem witness_seekThenGenerate :
    (fresh.ready = true ∧ initMatrix z16 z8 0 = some fresh.x ∧ fresh.off = 64) ∧
    (partway.ready = true ∧ initMatrix z16 z8 1 = some partway.x ∧
      0 < (State.off { partway with off := 1 }).val ∧ (State.off { partway with off := 63 }).val < 64) := by
  refine ⟨⟨rfl, by decide, rfl⟩, rfl, ?_, by decide, by decide⟩
  show initMatrix z16 z8 1 = some (matrixB1 1 0)
  decide

theorem witness_genBigIsOneLongRequest : fresh.ready = true := rfl

/-- Each kind of thing the host sends, failing and not, as in P4. -/
theorem witness_failedFramesLeaveNoTrace :
    ∀ a ∈ [Sent.frame (.gen 4), .frame (.load [] z8 7), .badHeader 0x05 0 0 0, .badHeader 0x02 0x01 0 0,
      .badHeader 0x04 0 0 0x80, .frame (.load z16 z8 0), .frame (.gen 3), .reset, .frame (.gen 1)], a.WellFormed := by
  simp [Sent.WellFormed, IllegalHeader, Instr.wellFormed, z16]

/-- The frames of P4 that are left of these. -/
theorem test_succeedingSent :
    succeedingSent false [Sent.frame (.gen 4), .frame (.load [] z8 7), .badHeader 0x05 0 0 0, .badHeader 0x02 0x01 0 0,
      .badHeader 0x04 0 0 0x80, .frame (.load z16 z8 0), .frame (.gen 3), .reset, .frame (.gen 1)] =
    [.frame (.load z16 z8 0), .frame (.gen 3), .reset] := by decide

/-- A command that completes, and the two errors a command can meet. -/
theorem witness_oneResponseAfterTheBytes :
    (∃ t, exec (.seek 5) fresh = .next t) ∧
    (∃ t, exec (.load [] z8 0) fresh = .next t) ∧ ∃ t, exec (.gen 4) State.reset = .next t :=
  ⟨⟨_, rfl⟩, ⟨_, rfl⟩, ⟨_, rfl⟩⟩

theorem witness_errorsKeepEveryBit :
    exec (.gen 4) State.reset = .next { State.reset with output := [.rsp .notReady] } ∧
    (State.output { State.reset with output := [.rsp .notReady] }).getLast? = some (.rsp .notReady) ∧
    Response.notReady ≠ .ok :=
  ⟨rfl, rfl, by decide⟩

/-- A command of each opcode from a state with leftover bytes. -/
theorem witness_commandFrames :
    (∃ t, exec (.seek 5) partway = .next t ∧ Instr.opcode (.seek 5) = .seek) ∧
    (∃ t, exec (.load z16 z8 0) partway = .next t ∧ Instr.opcode (.load z16 z8 0) = .load) ∧
    (∃ t, exec (.gen 0) State.reset = .next t ∧ Instr.opcode (.gen 0) ≠ .load) ∧
    ∃ t, exec (.enc []) State.reset = .next t ∧ Instr.opcode (.enc []) ≠ .load :=
  ⟨⟨_, rfl, rfl⟩, ⟨_, rfl, rfl⟩, ⟨_, rfl, by decide⟩, ⟨_, rfl, by decide⟩⟩

/-- READY set by a command, and cleared by a step. -/
theorem witness_readySetByLoadClearedByReset :
    (∃ t, exec (.load z16 z8 0) State.reset = .next t ∧ t.ready = true) ∧
    (∃ t, step fresh.sendReset = .next t ∧ fresh.sendReset.ready = true ∧ t.ready = false) ∧
    Instr.opcode (.gen 4) ≠ .load ∧ State.reset.ready = false :=
  ⟨⟨_, rfl, rfl⟩, ⟨_, rfl, rfl, rfl⟩, by decide, rfl⟩

theorem partway_inv : partway.Inv := by
  refine ⟨by decide, fun h => absurd h (by decide), fun _ => .inr ⟨rfl, rfl, rfl, rfl, rfl, rfl, rfl, rfl⟩, fun _ => ⟨0, ?_⟩⟩
  show keystreamBlock (matrixB1 0 0) 0 = keystreamBlock (matrixB1 1 0) 0
  rw [show matrixB1 1 0 = withCounter (matrixB1 0 0) 1 from rfl, keystreamBlock_withCounter]

/-- A state with leftover bytes meets the invariant, and takes a step: a SEEK. -/
theorem witness_stepKeepsInvariant :
    (partway.sendBytes [0x04, 0, 0, 0, 5, 0, 0, 0, 0, 0, 0, 0]).Inv ∧
    ∃ t, step (partway.sendBytes [0x04, 0, 0, 0, 5, 0, 0, 0, 0, 0, 0, 0]) = .next t :=
  ⟨⟨partway_inv.1, partway_inv.2, partway_inv.3, partway_inv.4⟩, ⟨_, rfl⟩⟩

/-- Two states with no instance that differ in `X`, and two with one that differ in a served byte, agree. -/
theorem witness_hiddenStateIsUnobservable :
    State.Agree State.reset { State.reset with x := matrixB1 0 0 } ∧
    State.Agree partway { partway with ovb := partway.ovb.set 0 0 } := by
  refine ⟨⟨rfl, rfl, rfl, rfl, fun h => absurd h (by decide), fun _ _ _ => rfl⟩, rfl, rfl, rfl, rfl, fun _ => rfl, ?_⟩
  exact witness_encryptThenDecrypt.2.2

end Sys2Proof.Tests
end

section
/-! The buffer's status and the reset state (R22). -/

namespace Sys2Proof.Machine

/-- `hasLeftover` reads the cursor alone (R16). -/
theorem State.hasLeftover_iff (s : State) : s.hasLeftover = true ↔ s.off.val < 64 :=
  decide_eq_true_iff

/-- A cursor at 64 is an empty buffer (R16). -/
theorem State.not_hasLeftover_of_off_eq {s : State} (h : s.off = 64) : ¬ s.hasLeftover := by
  rw [State.hasLeftover_iff, h]
  decide

/-- Settles O12: READY and OFF are reset's own fields, and OFF = 64 leaves nothing in the buffer. -/
theorem resetLeavesNoInstance : Obligations.ResetLeavesNoInstance :=
  ⟨State.reset_ready, State.reset_off, State.not_hasLeftover_of_off_eq State.reset_off⟩

end Sys2Proof.Machine
end

section
/-! The mixing datapath: ROTL32 is the library's rotation, and the lines of QR are written with it (R71, R73). -/

namespace Sys2Proof.Machine

/-- The two shifts of ROTL32 are those of the library's rotation at every amount below the width (R71). -/
theorem rotl32_eq_rotateLeft (v : Word) {n : Nat} (hn : n < 32) : rotl32 v n = v.rotateLeft n := by
  rw [BitVec.rotateLeft_def, Nat.mod_eq_of_lt hn, rotl32]

/-- Settles O15: a bit that stays below bit 32 comes from the left shift; one that passes it returns at the bottom,
from the right shift. -/
theorem rotateMovesEachBit : Obligations.RotateMovesEachBit := by
  intro v n i _ hn hi
  have hlt : n < 32 := by omega
  rw [rotl32_eq_rotateLeft v hlt, BitVec.getLsbD_rotateLeft_of_le hlt]
  obtain hstay | hwrap := Nat.lt_or_ge (i + n) 32
  · have hbit : (i + n) % 32 = i + n := Nat.mod_eq_of_lt hstay
    simp [hbit, hstay]
  · have hbit : (i + n) % 32 = i + n - 32 := by omega
    have hlow : i + n - 32 < n := by omega
    have hback : 32 - n + (i + n - 32) = i := by omega
    simp [hbit, hlow, hback]

/-- The shape of every line of QR, in the library's operations (R70 to R73). -/
theorem xor32_rotl32_add32 (w u v : Word) {n : Nat} (hn : n < 32) :
    xor32 w (rotl32 (add32 u v) n) = w ^^^ (u + v).rotateLeft n := by
  rw [rotl32_eq_rotateLeft _ hn, xor32, add32]

/-- Settles O16: QR's lines have one shape, at the amounts 7, 9, 13 and 18; the zero fixed point is one evaluation. -/
theorem quarterRoundFollowsFourLines : Obligations.QuarterRoundFollowsFourLines :=
  ⟨fun a b c d =>
    ⟨xor32_rotl32_add32 b a d (by decide), xor32_rotl32_add32 c _ a (by decide),
      xor32_rotl32_add32 d _ _ (by decide), xor32_rotl32_add32 a _ _ (by decide)⟩,
    by decide⟩

end Sys2Proof.Machine
end

section
/-! The block generator: CINC's two cases and the counter words it writes (R94). -/

namespace Sys2Proof.Machine

/-- `lowWrapped` asks whether the new low word is zero (R18, R94). -/
theorem lowWrapped_iff (low : Word) : lowWrapped low = true ↔ low = 0 :=
  beq_iff_eq

/-- CINC when the new low word is zero: the carry goes into the high word (R94). -/
theorem counterInc_of_wrap {x : StateMatrix} (hwrap : x[8] + 1 = 0) :
    counterInc x = (x.set 8 (x[8] + 1)).set 9 (x[9] + 1) :=
  if_pos ((lowWrapped_iff _).2 hwrap)

/-- CINC when the new low word is not zero: there is no carry (R94). -/
theorem counterInc_of_no_wrap {x : StateMatrix} (hwrap : x[8] + 1 ≠ 0) :
    counterInc x = x.set 8 (x[8] + 1) :=
  if_neg (mt (lowWrapped_iff _).1 hwrap)

/-- Settles O24: whether the low word wraps decides which words CINC sets, word 8 alone or words 8 and 9; every other
word is read past those writes. -/
theorem counterIncrementCarries : Obligations.CounterIncrementCarries := by
  intro x
  by_cases hwrap : x[8] + 1 = 0
  · rw [counterInc_of_wrap hwrap, if_pos hwrap]
    refine ⟨by simp, by simp, fun j hj h8 h9 => ?_⟩
    rw [Vector.getElem_set_ne _ _ h9.symm, Vector.getElem_set_ne _ _ h8.symm]
  · rw [counterInc_of_no_wrap hwrap, if_neg hwrap]
    refine ⟨by simp, by simp, fun j hj h8 _ => ?_⟩
    rw [Vector.getElem_set_ne _ _ h8.symm]

end Sys2Proof.Machine
end

section
/-! The overflow buffer: the predicate, the mixers, and what SERVE and REFILL do (R110 to R113, R115). -/

namespace Sys2Proof.Machine

/-- The cursor never passes the end of the buffer, so no leftover count is cut off at zero (R16, R110). -/
theorem State.leftover_add_off (s : State) : s.leftover + s.off.val = 64 :=
  Nat.sub_add_cancel (Nat.le_of_lt_succ s.off.isLt)

/-- `mixSel` reads bit 0 of the opcode alone (R54). -/
theorem mixSel_eq_xor_iff (opc : Byte) : mixSel opc = .xor ↔ opc.getLsbD 0 = true := by
  unfold mixSel
  split_ifs with hbit
  · exact iff_of_true rfl hbit
  · exact iff_of_false (by decide) hbit

/-- The XOR mixer with the same keystream byte twice gives the old byte back (R111). -/
theorem mix_xor_mix_xor (old ks : Byte) : mix .xor (mix .xor old ks) ks = old := by
  rw [mix, mix, BitVec.xor_assoc, BitVec.xor_self, BitVec.xor_zero]

/-- A zero byte under the XOR mixer becomes the keystream byte (R111). -/
theorem mix_xor_zero (ks : Byte) : mix .xor 0 ks = ks :=
  BitVec.zero_xor

/-- SERVE has no result beyond the leftover bytes (R115). -/
theorem State.serve_of_lt (s : State) (sel : Mixer) {dest : List Byte} (h : s.leftover < dest.length) :
    s.serve sel dest = none :=
  dif_neg (Nat.not_le.2 h)

/-- A destination no longer than the leftover bytes keeps its length when it is mixed with them (R112). -/
theorem State.length_mixBytes_ovb (s : State) (sel : Mixer) {dest : List Byte} (h : dest.length ≤ s.leftover) :
    (mixBytes sel dest (s.ovb.toList.drop s.off.val)).length = dest.length := by
  have hrest : (s.ovb.toList.drop s.off.val).length = s.leftover := by
    rw [List.length_drop, Vector.length_toList, State.leftover]
  rw [length_mixBytes, hrest, Nat.min_eq_left h]

/-- Byte `i` of the mixed destination reads `OVB[OFF + i]` and its own old value (R112). -/
theorem State.getElem_mixBytes_ovb (s : State) (sel : Mixer) (dest : List Byte) {i : Nat} (hi : i < dest.length)
    (hmix : i < (mixBytes sel dest (s.ovb.toList.drop s.off.val)).length) (hovb : s.off.val + i < 64) :
    (mixBytes sel dest (s.ovb.toList.drop s.off.val))[i] = mix sel dest[i] s.ovb[s.off.val + i] := by
  simp only [mixBytes, List.getElem_zipWith, List.getElem_drop, Vector.getElem_toList]

/-- Settles O31: inside the domain the result is the mixed destination and the moved cursor, read byte by byte; beyond
it there is none. -/
theorem serveHandsOutLeftover : Obligations.ServeHandsOutLeftover := by
  intro s sel dest
  refine ⟨fun hle => ⟨_, _, s.serve_of_le sel dest hle, s.length_mixBytes_ovb sel hle, ?_, rfl, rfl⟩, s.serve_of_lt sel⟩
  exact fun _ hi hmix hovb => s.getElem_mixBytes_ovb sel dest hi hmix hovb

/-- Settles O32: REFILL's rule, whose two parts are the block PBLK makes from `CTR` and the overwrite mixer. -/
theorem refillStoresRawBlock : Obligations.RefillStoresRawBlock :=
  State.refill_eq

/-- Settles O29, by the reading of HASL and the bound of the cursor. -/
theorem leftoverPredicate : Obligations.LeftoverPredicate :=
  fun s => ⟨s.hasLeftover_iff, s.leftover_add_off⟩

/-- Settles O30: the two inputs of the multiplexer, what XOR does twice and on zero, and the select of each opcode. -/
theorem mixerBytes : Obligations.MixerBytes :=
  ⟨fun old ks => ⟨rfl, rfl, mix_xor_mix_xor old ks, mix_xor_zero ks⟩, mixSel_gen, mixSel_enc, mixSel_eq_xor_iff⟩

end Sys2Proof.Machine
end

section
/-! The façade's SEEK: its two answers, and its counter words read with the library's shift (R124). -/

namespace Sys2Proof.Machine

/-- SEEK where an instance exists: SCTR, then OK (R124). -/
theorem exec_seek_of_ready {s : State} (h : s.ready = true) (value : Dword) :
    exec (.seek value) s = .next ((s.sctr value).respond .ok) :=
  if_pos h

/-- SEEK where none exists: the error and nothing else (R124, R142). -/
theorem exec_seek_of_not_ready {s : State} (h : s.ready = false) (value : Dword) :
    exec (.seek value) s = .next (s.raiseError .notReady) :=
  if_neg (Bool.eq_false_iff.1 h)

/-- `X[8]` after `CTR <- v` is `v` cut to a word (R12). -/
theorem withCounter_low_eq_setWidth (x : StateMatrix) (v : Dword) : (withCounter x v)[8] = v.setWidth 32 := by
  rw [withCounter_low, BitVec.setWidth_eq_extractLsb' (by decide)]

/-- `X[9]` after `CTR <- v` is `v` shifted down by a word and cut to one: bit `i` of both is bit `32 + i` of `v`
(R12). -/
theorem withCounter_high_eq_setWidth (x : StateMatrix) (v : Dword) :
    (withCounter x v)[9] = (v >>> 32).setWidth 32 := by
  rw [withCounter_high]
  ext i hi
  rw [BitVec.getElem_extractLsb', BitVec.getElem_setWidth, BitVec.getLsbD_ushiftRight]

/-- Settles O35: with an instance the new register file is SCTR's, whose words 8 and 9 are the two halves of the value
and whose other words are the old ones; without one the answer is the error's. -/
theorem seekWritesCounterOnly : Obligations.SeekWritesCounterOnly := by
  intro value s
  refine ⟨fun hready => ⟨withCounter s.x value, exec_seek_of_ready hready value, ?_⟩,
    fun hnone => exec_seek_of_not_ready hnone value⟩
  exact ⟨withCounter_low_eq_setWidth s.x value, withCounter_high_eq_setWidth s.x value, withCounter_other s.x value⟩

end Sys2Proof.Machine
end

section
/-! The decoder and the encoder are each other's inverse on the frames of well-formed commands, and the headers that are
no command's (R51 to R58). -/

namespace Sys2Proof

/-! ### What each payload decoder has read -/

/-- Format K read back (R52). -/
theorem decodeLoad_eq_some_iff {klen : Nat} {p rest : List Byte} {i : Instr} :
    decodeLoad klen p = some (i, rest) ↔
      ∃ key nonce ctr0, i = .load key nonce ctr0 ∧ key.length = klen ∧ p = payloadBytes i ++ rest := by
  constructor
  · intro h
    unfold decodeLoad at h
    split at h
    · cases h
    next key p1 hkey =>
      split at h
      · cases h
      next nonce p2 hnonce =>
        split at h
        · cases h
        next ctr0 p3 hctr =>
          cases h
          obtain ⟨rfl, hlen⟩ := takeBytes_eq_some_iff.1 hkey
          obtain rfl := takeNonce_eq_some_iff.1 hnonce
          obtain rfl := takeU64_eq_some_iff.1 hctr
          exact ⟨key, nonce, ctr0, rfl, hlen, by simp [payloadBytes]⟩
  · rintro ⟨key, nonce, ctr0, rfl, rfl, rfl⟩
    simp only [decodeLoad, payloadBytes, List.append_assoc, takeBytes_append,
      takeNonce_eq_some_iff.2 rfl, takeU64_eq_some_iff.2 rfl]

/-- Format L read back (R52). -/
theorem decodeGen_eq_some_iff {p rest : List Byte} {i : Instr} :
    decodeGen p = some (i, rest) ↔ ∃ len, i = .gen len ∧ p = payloadBytes i ++ rest := by
  constructor
  · intro h
    unfold decodeGen at h
    split at h
    · cases h
    next len p1 hlen =>
      cases h
      exact ⟨len, rfl, takeU32_eq_some_iff.1 hlen⟩
  · rintro ⟨len, rfl, rfl⟩
    simp only [decodeGen, payloadBytes, takeU32_eq_some_iff.2 rfl]

/-- The `LEN` field of an ENC frame holds the number of data bytes, where that number fits it (R5, R52). -/
theorem toNat_ofNat_of_le {n : Nat} (h : n ≤ 4294967295) : (BitVec.ofNat 32 n).toNat = n := by
  rw [BitVec.toNat_ofNat]
  exact Nat.mod_eq_of_lt (by omega)

/-- Format D read back: the data are as many bytes as `LEN` can say (R52). -/
theorem decodeEnc_eq_some_iff {p rest : List Byte} {i : Instr} :
    decodeEnc p = some (i, rest) ↔
      ∃ data, i = .enc data ∧ data.length ≤ 4294967295 ∧ p = payloadBytes i ++ rest := by
  constructor
  · intro h
    unfold decodeEnc at h
    split at h
    · cases h
    next len p1 hlen =>
      split at h
      · cases h
      next data p2 hdata =>
        cases h
        obtain rfl := takeU32_eq_some_iff.1 hlen
        obtain ⟨rfl, hn⟩ := takeBytes_eq_some_iff.1 hdata
        have := len.isLt
        exact ⟨data, rfl, by omega, by simp [payloadBytes, hn]⟩
  · rintro ⟨data, rfl, hle, rfl⟩
    simp only [decodeEnc, payloadBytes, List.append_assoc, takeU32_eq_some_iff.2 rfl, toNat_ofNat_of_le hle,
      takeBytes_append]

/-- Format S read back (R52). -/
theorem decodeSeek_eq_some_iff {p rest : List Byte} {i : Instr} :
    decodeSeek p = some (i, rest) ↔ ∃ value, i = .seek value ∧ p = payloadBytes i ++ rest := by
  constructor
  · intro h
    unfold decodeSeek at h
    split at h
    · cases h
    next value p1 hvalue =>
      cases h
      exact ⟨value, rfl, takeU64_eq_some_iff.1 hvalue⟩
  · rintro ⟨value, rfl, rfl⟩
    simp only [decodeSeek, payloadBytes, takeU64_eq_some_iff.2 rfl]

/-! ### The whole frame -/

/-- The key length a well-formed LOAD writes into `ARG` is the length of its key (R51, R57). -/
theorem toNat_arg_load {key : List Byte} {nonce : Vector Byte 8} {ctr0 : Dword}
    (h : Instr.wellFormed (.load key nonce ctr0) = true) : (Instr.arg (.load key nonce ctr0)).toNat = key.length := by
  have hk : key.length ≤ 255 := of_decide_eq_true h
  simp only [Instr.arg, BitVec.toNat_ofNat]
  omega

/-- The payload behind a command's header is read back, whatever follows it (R52, R55). -/
theorem decodePayload_payloadBytes {i : Instr} (h : i.wellFormed = true) (rest : List Byte) :
    decodePayload ⟨i.opcode, i.arg⟩ (payloadBytes i ++ rest) = some (i, rest) := by
  cases i with
  | load key nonce ctr0 => exact decodeLoad_eq_some_iff.2 ⟨key, nonce, ctr0, rfl, (toNat_arg_load h).symm, rfl⟩
  | gen len => exact decodeGen_eq_some_iff.2 ⟨len, rfl, rfl⟩
  | enc data => exact decodeEnc_eq_some_iff.2 ⟨data, rfl, of_decide_eq_true h, rfl⟩
  | seek value => exact decodeSeek_eq_some_iff.2 ⟨value, rfl, rfl⟩

/-- What a legal header's payload is read as: a well-formed command of that header, and the bytes are its payload
(R52, R56). -/
theorem payload_of_decodePayload {h : Header} {p rest : List Byte} {i : Instr} (hlegal : h.op = .load ∨ h.arg = 0)
    (hp : decodePayload h p = some (i, rest)) :
    i.wellFormed = true ∧ h = ⟨i.opcode, i.arg⟩ ∧ p = payloadBytes i ++ rest := by
  obtain ⟨op, arg⟩ := h
  have harg : op ≠ .load → arg = 0 := fun hne => hlegal.resolve_left hne
  cases op with
  | load =>
    obtain ⟨key, nonce, ctr0, rfl, hlen, hbytes⟩ := decodeLoad_eq_some_iff.1 hp
    have hk : key.length ≤ 255 := hlen ▸ Nat.le_of_lt_succ arg.isLt
    exact ⟨decide_eq_true hk, by simp [Instr.opcode, Instr.arg, hlen], hbytes⟩
  | gen =>
    obtain ⟨len, rfl, hbytes⟩ := decodeGen_eq_some_iff.1 hp
    exact ⟨rfl, by rw [harg (by decide)]; rfl, hbytes⟩
  | enc =>
    obtain ⟨data, rfl, hle, hbytes⟩ := decodeEnc_eq_some_iff.1 hp
    exact ⟨decide_eq_true hle, by rw [harg (by decide)]; rfl, hbytes⟩
  | seek =>
    obtain ⟨value, rfl, hbytes⟩ := decodeSeek_eq_some_iff.1 hp
    exact ⟨rfl, by rw [harg (by decide)]; rfl, hbytes⟩

/-- A well-formed command is read back from its frame, whatever follows it. -/
theorem decode_encode_append {i : Instr} (h : i.wellFormed = true) (rest : List Byte) :
    decode (encode i ++ rest) = .instr i rest := by
  rw [encode_eq_cons]
  simp only [List.cons_append]
  rw [decode_cons_of_ok (decodeHeader_headerBytes i), decodePayload_payloadBytes h]

/-- The decoder reads a command exactly from the frame of that command (R51 to R57). -/
theorem decode_eq_instr_iff {bs rest : List Byte} {i : Instr} :
    decode bs = .instr i rest ↔ i.wellFormed = true ∧ bs = encode i ++ rest := by
  refine ⟨fun hd => ?_, fun ⟨hw, hbs⟩ => hbs ▸ decode_encode_append hw rest⟩
  obtain ⟨-, hi⟩ | ⟨h0, h1, h2, h3, p, rfl, ⟨e, -, he⟩ | ⟨h, hh, ⟨-, hi⟩ | ⟨j, r, hp, hj⟩⟩⟩ := decode_cases bs
  · rw [hi] at hd; cases hd
  · rw [he] at hd; cases hd
  · rw [hi] at hd; cases hd
  · rw [hj] at hd
    cases hd
    obtain ⟨hop, rfl, rfl, rfl, hlegal⟩ := (decodeHeader_eq_ok_iff _ _ _ _ _).1 hh
    obtain ⟨hw, rfl, rfl⟩ := payload_of_decodePayload hlegal hp
    exact ⟨hw, by rw [encode_eq_cons, opcodeByte_of_opcodeOf hop]; rfl⟩

/-- Settles O2: the header is legal and read as written, and behind it the payload of each format is read back. -/
theorem decodeReadsBackEveryFrame : Obligations.DecodeReadsBackEveryFrame :=
  fun _ rest hw => decode_encode_append hw rest

/-- Settles O3: the decoder's one path to a command has read its header and then its payload, field by field. -/
theorem decodedBytesAreTheFrame : Obligations.DecodedBytesAreTheFrame :=
  fun _ _ _ hd => decode_eq_instr_iff.1 hd

/-! ### Illegal headers (R56) -/

/-- A header is rejected exactly when it is illegal (R56). -/
theorem decodeHeader_error_iff (h0 h1 h2 h3 : Byte) :
    (∃ e, decodeHeader (le32 h0 h1 h2 h3) = .error e) ↔ IllegalHeader h0 h1 h2 h3 := by
  have hnot : (∃ e, decodeHeader (le32 h0 h1 h2 h3) = .error e) ↔
      ¬ ∃ h, decodeHeader (le32 h0 h1 h2 h3) = .ok h := by
    cases decodeHeader (le32 h0 h1 h2 h3) <;> simp
  have hlegal : (∃ h, decodeHeader (le32 h0 h1 h2 h3) = .ok h) ↔
      ∃ op, opcodeOf h0 = some op ∧ h2 = 0 ∧ h3 = 0 ∧ (op = .load ∨ h1 = 0) := by
    simp only [decodeHeader_eq_ok_iff]
    constructor
    · rintro ⟨h, hop, rfl, hr⟩
      exact ⟨h.op, hop, hr⟩
    · rintro ⟨op, hop, hr⟩
      exact ⟨⟨op, h1⟩, hop, rfl, hr⟩
  rw [hnot, hlegal, IllegalHeader, ← opcodeOf_eq_none_iff]
  cases hop : opcodeOf h0 with
  | none => simp
  | some op =>
    obtain rfl := opcodeByte_of_opcodeOf hop
    cases op <;> simp [opcodeByte] <;> tauto

/-- The decoder rejects a header exactly when its four bytes have arrived and are illegal (R56). -/
theorem decode_eq_illegal_iff {bs rest : List Byte} {e : HeaderError} :
    decode bs = .illegal e rest ↔
      ∃ h0 h1 h2 h3, bs = h0 :: h1 :: h2 :: h3 :: rest ∧ decodeHeader (le32 h0 h1 h2 h3) = .error e := by
  constructor
  · intro hd
    obtain ⟨-, hi⟩ | ⟨h0, h1, h2, h3, p, rfl, ⟨e', hh, he⟩ | ⟨h, -, ⟨-, hi⟩ | ⟨j, r, -, hj⟩⟩⟩ := decode_cases bs
    · rw [hi] at hd; cases hd
    · rw [he] at hd
      cases hd
      exact ⟨h0, h1, h2, h3, rfl, hh⟩
    · rw [hi] at hd; cases hd
    · rw [hj] at hd; cases hd
  · rintro ⟨h0, h1, h2, h3, rfl, hh⟩
    exact decode_cons_of_error hh rest

/-- Settles O4: the decoder stops after a header exactly when the header is rejected. -/
theorem headerIllegalExactlyWhen : Obligations.HeaderIllegalExactlyWhen := by
  intro h0 h1 h2 h3 p
  refine Iff.trans ?_ (decodeHeader_error_iff h0 h1 h2 h3)
  constructor
  · rintro ⟨e, rest, hd⟩
    obtain ⟨_, _, _, _, hbs, hh⟩ := decode_eq_illegal_iff.1 hd
    cases hbs
    exact ⟨e, hh⟩
  · rintro ⟨e, hh⟩
    exact ⟨e, p, decode_cons_of_error hh p⟩

/-! ### Frames that are not whole (R55) -/

/-- Bytes that are less than a frame are no command and no illegal header: what completes them would be read differently
(R55). -/
theorem decode_of_partialFrame {sent : List Byte} (h : PartialFrame sent) : decode sent = .incomplete := by
  obtain hshort | ⟨i, missing, hw, hne, henc⟩ := h
  · match sent, hshort with
    | [], _ | [_], _ | [_, _], _ | [_, _, _], _ => rfl
  · have hfull : decode (sent ++ missing) = .instr i [] := by
      rw [← henc, ← List.append_nil (encode i), decode_encode_append hw]
    cases hd : decode sent with
    | incomplete => rfl
    | illegal e rest =>
      obtain ⟨h0, h1, h2, h3, rfl, hh⟩ := decode_eq_illegal_iff.1 hd
      have hrej : decode (h0 :: h1 :: h2 :: h3 :: rest ++ missing) = .illegal e (rest ++ missing) :=
        decode_cons_of_error hh _
      rw [hrej] at hfull
      cases hfull
    | instr j rest =>
      obtain ⟨hj, rfl⟩ := decode_eq_instr_iff.1 hd
      rw [List.append_assoc, decode_encode_append hj] at hfull
      obtain ⟨-, hnil⟩ := List.append_eq_nil_iff.1 (Decoded.instr.inj hfull).2
      exact absurd hnil hne

/-! ### Fixed values -/

/-- Settles O1: each of the ten worked frames is one evaluation of the decoder. -/
theorem workedFramesDecode : Obligations.WorkedFramesDecode := by
  unfold Obligations.WorkedFramesDecode
  refine ⟨?_, ?_, ?_, ?_, ?_, ?_, ?_, ?_, ?_, ?_⟩ <;> decide

/-- Settles O5: the four codes are read off, and different responses have different codes. -/
theorem responseCodeValues : Obligations.ResponseCodeValues := by
  refine ⟨rfl, rfl, rfl, rfl, fun r s => ?_⟩
  cases r <;> cases s <;> decide

end Sys2Proof
end

section
/-! What the next step takes from the ports: a frame, an illegal header, RST, or nothing (R55, R56, R160). -/

namespace Sys2Proof.Machine

/-! ### Fetching -/

theorem fetch_of_decode_instr {input : List Input} {i : Instr} {rest : List Byte}
    (h : decode (leadingBytes input) = .instr i rest) :
    fetch input = .instr i (rest.map .byte ++ afterBytes input) := by
  rw [fetch, h]

theorem fetch_of_decode_illegal {input : List Input} {e : HeaderError} {rest : List Byte}
    (h : decode (leadingBytes input) = .illegal e rest) :
    fetch input = .illegal e (rest.map .byte ++ afterBytes input) := by
  rw [fetch, h]

/-- A whole frame is taken, whatever stands behind it (R55; notes/assumptions/2.md). -/
theorem fetch_encode_append {i : Instr} (h : i.wellFormed = true) (rest : List Input) :
    fetch ((encode i).map .byte ++ rest) = .instr i rest := by
  have hd : decode (leadingBytes ((encode i).map .byte ++ rest)) = .instr i (leadingBytes rest) := by
    rw [leadingBytes_append, decode_encode_append h]
  rw [fetch_of_decode_instr hd, afterBytes_append, leadingBytes_afterBytes]

/-- Four illegal header bytes are taken, whatever stands behind them (R56; notes/assumptions/2.md). -/
theorem fetch_illegalHeader {h0 h1 h2 h3 : Byte} (h : IllegalHeader h0 h1 h2 h3) (rest : List Input) :
    ∃ e, fetch (.byte h0 :: .byte h1 :: .byte h2 :: .byte h3 :: rest) = .illegal e rest := by
  obtain ⟨e, he⟩ := (decodeHeader_error_iff h0 h1 h2 h3).2 h
  refine ⟨e, ?_⟩
  have hf := fetch_of_decode_illegal (input := .byte h0 :: .byte h1 :: .byte h2 :: .byte h3 :: rest)
    (decode_cons_of_error he (leadingBytes rest))
  simpa only [afterBytes, leadingBytes_afterBytes] using hf

/-- With a part of a frame and no RST behind it, nothing is taken (R55). -/
theorem fetch_partialFrame {sent : List Byte} (h : PartialFrame sent) : fetch (sent.map .byte) = .wait := by
  have hl := leadingBytes_append sent []
  have ha := afterBytes_append sent []
  simp only [List.append_nil, leadingBytes, afterBytes] at hl ha
  rw [fetch, hl, ha, decode_of_partialFrame h]

/-- RST takes the part of a frame before it (R160). -/
theorem fetch_partialFrame_rst {sent : List Byte} (h : PartialFrame sent) (rest : List Input) :
    fetch (sent.map .byte ++ .rst :: rest) = .reset rest := by
  rw [fetch, leadingBytes_append, afterBytes_append]
  simp only [leadingBytes, afterBytes, List.append_nil, decode_of_partialFrame h]

/-- RST is taken only where no whole frame and no whole illegal header stands before it (notes/assumptions/2.md). -/
theorem decode_of_fetch_reset {input rest : List Input} (h : fetch input = .reset rest) :
    decode (leadingBytes input) = .incomplete ∧ afterBytes input = .rst :: rest := by
  unfold fetch at h
  split at h
  · cases h
  · cases h
  next hd =>
    refine ⟨hd, ?_⟩
    obtain ha | ⟨rest', ha⟩ := afterBytes_cases input <;> rw [ha] at h ⊢ <;> cases h
    rfl

/-! ### The step that follows -/

theorem step_of_fetch_instr {s : State} {i : Instr} {rest : List Input} (h : fetch s.input = .instr i rest) :
    step s = exec i { s with input := rest } := by
  rw [step, h]

theorem step_of_fetch_illegal {s : State} {e : HeaderError} {rest : List Input}
    (h : fetch s.input = .illegal e rest) :
    step s = .next (State.raiseError { s with input := rest } .illegalCmd) := by
  rw [step, h]
  rfl

theorem step_of_fetch_reset {s : State} {rest : List Input} (h : fetch s.input = .reset rest) :
    step s = .next (State.assertReset { s with input := rest }) := by
  rw [step, h]

theorem step_of_fetch_wait {s : State} (h : fetch s.input = .wait) : step s = .next s := by
  rw [step, h]

/-- A step on a sent frame is the command, with the frame gone from the ports (R39, R55). -/
theorem step_encode_append {i : Instr} (h : i.wellFormed = true) {s : State} {rest : List Input}
    (hin : s.input = (encode i).map .byte ++ rest) : step s = exec i { s with input := rest } :=
  step_of_fetch_instr (hin ▸ fetch_encode_append h rest)

/-- A step on an illegal header is its answer (R56, R143). -/
theorem step_illegalHeader {h0 h1 h2 h3 : Byte} (h : IllegalHeader h0 h1 h2 h3) {s : State} {rest : List Input}
    (hin : s.input = .byte h0 :: .byte h1 :: .byte h2 :: .byte h3 :: rest) :
    step s = .next (State.raiseError { s with input := rest } .illegalCmd) := by
  obtain ⟨e, he⟩ := fetch_illegalHeader h rest
  exact step_of_fetch_illegal (hin ▸ he)

/-- A step on RST, after the part of a frame that RST discards (R160). -/
theorem step_partialFrame_rst {sent : List Byte} (h : PartialFrame sent) {s : State} {rest : List Input}
    (hin : s.input = sent.map .byte ++ .rst :: rest) :
    step s = .next (State.assertReset { s with input := rest }) :=
  step_of_fetch_reset (hin ▸ fetch_partialFrame_rst h rest)

/-- Settles O6: `fetch` takes exactly the bytes the decoder has read. -/
theorem stepRunsDecodedFrame : Obligations.StepRunsDecodedFrame :=
  fun _ _ _ hd => step_of_fetch_instr (fetch_of_decode_instr hd)

/-- Settles O7: a well-formed frame is fetched whole, whatever stands behind it. -/
theorem stepRunsEncodedFrame : Obligations.StepRunsEncodedFrame :=
  fun _ _ _ hw => step_encode_append hw rfl

/-- Settles O9: the header is fetched as an illegal one, and its answer is one response. -/
theorem illegalHeaderAnswered : Obligations.IllegalHeaderAnswered :=
  fun _ _ _ _ _ _ hin hill => step_illegalHeader hill hin

/-- Settles O10: a part of a frame is neither a command nor an illegal header, and no RST stands behind it. -/
theorem incompleteFrameWaits : Obligations.IncompleteFrameWaits :=
  fun _ _ hpart hin => step_of_fetch_wait (hin ▸ fetch_partialFrame hpart)

/-- Settles O11: with a part of a frame before it, RST is what is fetched, and it sets every part of the state. -/
theorem resetDropsPartialFrame : Obligations.ResetDropsPartialFrame :=
  fun _ _ _ hpart hin => ⟨_, step_partialFrame_rst hpart hin, rfl, rfl, rfl, rfl⟩

end Sys2Proof.Machine
end

section
/-! The words of the opcode table: a placed word is the frame of the command it is read as, and no byte more (R53, R55;
notes/assumptions/5.md). -/

namespace Sys2Proof

/-- The first four bytes of a number are the bytes of its low word. -/
theorem tableBytes_add_four (n w : Nat) :
    tableBytes (n + 4) w = bytesLe32 (BitVec.ofNat 32 w) ++ tableBytes n (w / 2 ^ 32) := by
  have hbyte (j : Nat) (hj : j < 4) : wordByte (BitVec.ofNat 32 w) j = BitVec.ofNat 8 (w / 256 ^ j) := by
    apply BitVec.eq_of_toNat_eq
    rw [wordByte_toNat, BitVec.toNat_ofNat, BitVec.toNat_ofNat]
    interval_cases j <;> omega
  simp only [tableBytes, bytesLe32, List.cons_append, List.nil_append, hbyte 0 (by decide), hbyte 1 (by decide),
    hbyte 2 (by decide), hbyte 3 (by decide), Nat.div_div_eq_div_mul, Nat.reduceMul, Nat.reducePow, Nat.div_one]

@[simp] theorem length_tableBytes (n w : Nat) : (tableBytes n w).length = n := by
  induction n generalizing w with
  | zero => rfl
  | succ n ih => rw [tableBytes, List.length_cons, ih]

theorem four_le_frameEnd (cw first : Word) : 4 ≤ frameEnd cw first := by
  unfold frameEnd
  split
  · exact Nat.le_refl 4
  · split <;> omega

/-- A word and the bytes behind it are told apart in one way only (R31). -/
theorem bytesLe32_append_inj {v w : Word} {p q : List Byte} (h : bytesLe32 v ++ p = bytesLe32 w ++ q) :
    v = w ∧ p = q := by
  have hv : takeU32 (bytesLe32 v ++ p) = some (v, p) := takeU32_eq_some_iff.2 rfl
  rw [takeU32_eq_some_iff.2 h] at hv
  cases hv
  exact ⟨rfl, rfl⟩

/-- A frame begins with the bytes of its header word (R51). -/
theorem encode_eq_bytesLe32_append (i : Instr) :
    encode i = bytesLe32 (le32 (opcodeByte i.opcode) i.arg 0 0) ++ payloadBytes i := by
  rw [bytesLe32_le32]
  rfl

/-- The end of a command's frame is where R52 says (R55). -/
theorem frameEnd_lenField {i : Instr} (hw : i.wellFormed = true) :
    frameEnd (le32 (opcodeByte i.opcode) i.arg 0 0) (Laws.FrameForm.lenField i) = i.frameLength := by
  have hform : Laws.FrameForm.Statement i := by
    cases i with
    | load key nonce ctr0 => exact Laws.FrameForm.load key nonce ctr0
    | gen len => exact Laws.FrameForm.gen len
    | enc data => exact Laws.FrameForm.enc data
    | seek value => exact Laws.FrameForm.seek value
  obtain ⟨-, -, -, hend⟩ := hform hw
  exact hend

/-- Only the end of an ENC depends on the first payload field (R55). -/
theorem frameEnd_congr (i : Instr) {v w : Word} (h : i.opcode = .enc → v = w) :
    frameEnd (le32 (opcodeByte i.opcode) i.arg 0 0) v = frameEnd (le32 (opcodeByte i.opcode) i.arg 0 0) w := by
  rw [frameEnd, frameEnd, decodeHeader_headerBytes]
  cases hop : i.opcode with
  | enc => rw [h hop]
  | load => rfl
  | gen => rfl
  | seek => rfl

/-- Bytes of a number that begin with a command's frame, as many as their own header asks for, are as many as that frame
has: for an ENC the first payload field is `LEN` (R52, R55). -/
theorem frameEnd_eq_frameLength {i : Instr} (hw : i.wellFormed = true) {given : Nat} {rest : List Byte}
    (h : tableBytes (frameEnd (BitVec.ofNat 32 given) (BitVec.ofNat 32 (given / 2 ^ 32))) given = encode i ++ rest) :
    frameEnd (BitVec.ofNat 32 given) (BitVec.ofNat 32 (given / 2 ^ 32)) = i.frameLength := by
  generalize hlen : frameEnd (BitVec.ofNat 32 given) (BitVec.ofNat 32 (given / 2 ^ 32)) = len at h ⊢
  obtain ⟨n, rfl⟩ := Nat.exists_eq_add_of_le' (hlen ▸ four_le_frameEnd _ _)
  rw [tableBytes_add_four, encode_eq_bytesLe32_append, List.append_assoc] at h
  obtain ⟨hcw, hp⟩ := bytesLe32_append_inj h
  rw [hcw] at hlen
  rw [← frameEnd_lenField hw, ← hlen]
  refine frameEnd_congr i fun hop => ?_
  cases i with
  | enc data =>
    have hend : 8 + (BitVec.ofNat 32 (given / 2 ^ 32)).toNat = n + 4 := by
      rw [frameEnd, decodeHeader_headerBytes] at hlen
      exact hlen
    obtain ⟨m, rfl⟩ := Nat.exists_eq_add_of_le' (show 4 ≤ n by omega)
    rw [tableBytes_add_four, payloadBytes, List.append_assoc] at hp
    exact (bytesLe32_append_inj hp).1
  | load => cases hop
  | gen => cases hop
  | seek => cases hop

/-- The frame of a table word that is read as a command is that command's frame, and no byte more. -/
theorem tableFrame_eq_encode {nbits w : Nat} {i : Instr} (h : decodeTableWord nbits w = some i) :
    i.wellFormed = true ∧ tableFrame nbits w = encode i := by
  unfold decodeTableWord at h
  split at h
  next j rest hd =>
    cases h
    obtain ⟨hw, hbytes⟩ := decode_eq_instr_iff.1 hd
    refine ⟨hw, ?_⟩
    have hlen : (tableFrame nbits w).length = i.frameLength :=
      (length_tableBytes _ _).trans (frameEnd_eq_frameLength hw hbytes)
    rw [hbytes, List.length_append, length_encode] at hlen
    rw [hbytes, List.eq_nil_of_length_eq_zero (show rest.length = 0 by omega), List.append_nil]
  · cases h
  · cases h

/-- Settles O8: the placed bytes are the frame of the command, so the step is `exec` of it and takes all of them. -/
theorem placedWordRunsNext : Obligations.PlacedWordRunsNext := by
  intro s nbits w i h
  obtain ⟨hw, hframe⟩ := tableFrame_eq_encode h
  exact Machine.step_encode_append hw (by rw [Machine.State.withFetchWord_input, hframe])

end Sys2Proof
end

section
/-! The closed form of a data command (R126): its counter, register file, cursor and buffer, and requests one after the
other (R127). -/

namespace Sys2Proof.Machine

/-! ### The state after a request -/

/-- A request that the leftover bytes satisfy moves the cursor only (R112). -/
theorem State.afterData_of_le (s : State) {n : Nat} (h : n ≤ s.leftover) :
    s.afterData n = { s with off := ⟨s.off.val + n, by unfold State.leftover at h; omega⟩ } :=
  dif_pos h

/-- Whole blocks from an empty buffer change the counter only (R131). -/
theorem State.afterData_of_whole_blocks {s : State} (ho : s.off = 64) {n : Nat} (hn : n % 64 = 0) :
    s.afterData n = { s with x := withCounter s.x (s.ctr + BitVec.ofNat 64 (n / 64)) } := by
  have hl : s.leftover = 0 := by rw [State.leftover, ho]; rfl
  obtain rfl | hpos := Nat.eq_zero_or_pos n
  · simp [State.ctr]
  · unfold State.afterData
    rw [dif_neg (by omega)]
    simp only [hl, Nat.sub_zero, hn, Nat.lt_irrefl, if_false, ← ho]

/-- The blocks a request of `n` bytes produces: as many as hold the bytes that are not left over (R126). -/
def State.blocksFor (s : State) (n : Nat) : Nat := (n - s.leftover + 63) / 64

/-- The counter advances by one for each block produced (R93, R126). -/
theorem State.afterData_ctr (s : State) (n : Nat) :
    (s.afterData n).ctr = s.ctr + BitVec.ofNat 64 (s.blocksFor n) := by
  unfold State.blocksFor State.afterData
  by_cases h : n ≤ s.leftover
  · have hb : (n - s.leftover + 63) / 64 = 0 := by omega
    rw [dif_pos h, hb, BitVec.add_zero]
    rfl
  · rw [dif_neg h]
    dsimp only
    split_ifs with hr
    · have hb : (n - s.leftover + 63) / 64 = (n - s.leftover) / 64 + 1 := by omega
      rw [hb, BitVec.ofNat_add, ← BitVec.add_assoc]
      exact counterOf_withCounter _ _
    · have hb : (n - s.leftover + 63) / 64 = (n - s.leftover) / 64 := by omega
      rw [hb]
      exact counterOf_withCounter _ _

/-- The register file after a request is the old one with the new counter (R14, R126). -/
theorem State.afterData_x_eq (s : State) (n : Nat) :
    (s.afterData n).x = withCounter s.x (s.ctr + BitVec.ofNat 64 (s.blocksFor n)) := by
  obtain ⟨c, hc⟩ := s.afterData_x n
  have hctr : (s.afterData n).ctr = c := by rw [State.ctr, hc, counterOf_withCounter]
  rw [hc, ← hctr, State.afterData_ctr]

/-- The buffer after a request is the old one, or a block of the present key and nonce (R113, R126). -/
theorem State.afterData_ovb (s : State) (n : Nat) :
    (n ≤ s.leftover ∧ (s.afterData n).ovb = s.ovb) ∨ (s.afterData n).off = 64 ∨
      ∃ c, (s.afterData n).ovb = keystreamBlock s.x c := by
  by_cases h : n ≤ s.leftover
  · exact .inl ⟨h, by rw [s.afterData_of_le h]⟩
  · unfold State.afterData
    rw [dif_neg h]
    dsimp only
    split_ifs
    · exact .inr (.inr ⟨_, rfl⟩)
    · exact .inr (.inl rfl)

/-- The cursor moves by the length of the request, modulo a block (R126, R165). -/
theorem State.afterData_off_mod (s : State) (n : Nat) :
    (s.afterData n).off.val % 64 = (s.off.val + n) % 64 := by
  have hl := s.leftover_add_off
  rw [State.afterData_off_val]
  split_ifs <;> omega

/-- A request leaves the cursor at 0 only where it was there and no byte was asked for (R114). -/
theorem State.afterData_off_pos {s : State} (ho : 0 < s.off.val) (n : Nat) : 0 < (s.afterData n).off.val := by
  rw [State.afterData_off_val]
  split_ifs <;> omega

/-- Settles O39: the counter and the cursor are read off the closed form, and the other words of `X` are kept because
only the counter is written. -/
theorem blocksProducedAndCursor : Obligations.BlocksProducedAndCursor := by
  refine fun s n => ⟨s.afterData_ctr n, s.afterData_off_mod n, fun j hj h8 h9 => ?_⟩
  simp only [State.afterData_x_eq]
  exact withCounter_other _ _ j hj h8 h9

/-! ### States that hand out the same stream (R127) -/

/-- Two states alike in all that a data command reads: the register file, the cursor and the leftover bytes. -/
structure State.Alike (s t : State) : Prop where
  x : s.x = t.x
  off : s.off = t.off
  leftover : ∀ (j : Nat) (h : j < 64), s.off.val ≤ j → s.ovb[j] = t.ovb[j]

/-- The leftover bytes are the first bytes of the stream, so states with the same stream have the same ones. -/
theorem State.alike_of_streamByte {s t : State} (hx : s.x = t.x) (ho : s.off = t.off)
    (h : ∀ k, s.streamByte k = t.streamByte k) : s.Alike t where
  x := hx
  off := ho
  leftover j hj hle := by rw [s.ovb_eq_streamByte j hj hle, t.ovb_eq_streamByte j hj (ho ▸ hle), ho, h]

theorem State.Alike.refl (s : State) : s.Alike s := ⟨rfl, rfl, fun _ _ _ => rfl⟩

theorem State.Alike.symm {s t : State} (h : s.Alike t) : t.Alike s :=
  ⟨h.x.symm, h.off.symm, fun j hj hle => (h.leftover j hj (h.off ▸ hle)).symm⟩

theorem State.Alike.trans {s t u : State} (h : s.Alike t) (h' : t.Alike u) : s.Alike u :=
  ⟨h.x.trans h'.x, h.off.trans h'.off,
    fun j hj hle => (h.leftover j hj hle).trans (h'.leftover j hj (h.off ▸ hle))⟩

theorem State.Alike.streamByte {s t : State} (h : s.Alike t) (k : Nat) : s.streamByte k = t.streamByte k :=
  State.streamByte_congr h.x h.off h.leftover k

theorem State.Alike.stream {s t : State} (h : s.Alike t) (n : Nat) : s.stream n = t.stream n :=
  List.map_congr_left fun k _ => h.streamByte k

theorem State.Alike.leftover_eq {s t : State} (h : s.Alike t) : s.leftover = t.leftover := by
  rw [State.leftover, State.leftover, h.off]

/-- The same request keeps states alike. -/
theorem State.Alike.afterData {s t : State} (h : s.Alike t) (n : Nat) : (s.afterData n).Alike (t.afterData n) := by
  refine State.alike_of_streamByte ?_ (Fin.ext ?_) fun k => ?_
  · rw [State.afterData_x_eq, State.afterData_x_eq, State.blocksFor, State.blocksFor, h.leftover_eq, State.ctr,
      State.ctr, h.x]
  · rw [State.afterData_off_val, State.afterData_off_val, h.leftover_eq, h.off]
  · rw [State.streamByte_afterData, State.streamByte_afterData, h.streamByte]

/-- The leftover count after a request (R126). -/
theorem State.leftover_afterData (s : State) (n : Nat) : (s.afterData n).leftover =
    if n ≤ s.leftover then s.leftover - n else (64 - (n - s.leftover) % 64) % 64 := by
  have hl := s.leftover_add_off
  rw [State.leftover, State.afterData_off_val]
  split_ifs <;> omega

/-- Two requests produce the blocks of the one they make up. -/
theorem State.blocksFor_add (s : State) (a b : Nat) :
    s.blocksFor (a + b) = s.blocksFor a + (s.afterData a).blocksFor b := by
  simp only [State.blocksFor, State.leftover_afterData]
  split_ifs <;> omega

/-- Two requests leave the state of the one they make up, but for bytes of `OVB` that are served (R127). -/
theorem State.afterData_add (s : State) (a b : Nat) :
    ((s.afterData a).afterData b).Alike (s.afterData (a + b)) := by
  refine State.alike_of_streamByte ?_ (Fin.ext ?_) fun k => ?_
  · rw [State.afterData_x_eq, State.afterData_x_eq, State.afterData_x_eq, State.afterData_ctr, withCounter_withCounter,
      State.blocksFor_add, BitVec.ofNat_add, BitVec.add_assoc]
  · have hl := s.leftover_add_off
    simp only [State.afterData_off_val, State.leftover_afterData]
    split_ifs <;> omega
  · simp only [State.streamByte_afterData, Nat.add_assoc]

end Sys2Proof.Machine
end

section
/-! What every command does, said once (R38, R58, R91, R122 to R124, R140 to R142): its effect on the block, its DOUT
bytes and its response. -/

namespace Sys2Proof.Machine

/-! ### The parts of an answer -/

/-- The response of a command that fails: LOAD fails on its key, the others on READY (R141, R142). -/
def failureOf : Instr → Response
  | .load _ _ _ => .invalidKeySize
  | .gen _ => .notReady
  | .enc _ => .notReady
  | .seek _ => .notReady

/-- The effect of a command on `X`, `OVB`, `OFF` and `READY`: none if it fails (R91, R124, R126, R145). -/
def State.effect (s : State) (i : Instr) : State :=
  if Sent.succeeds s.ready i then
    match i with
    | .load key nonce ctr0 => { s with x := (initMatrix key nonce ctr0).getD s.x, off := 64, ready := true }
    | .gen len => s.afterData len.toNat
    | .enc data => s.afterData data.length
    | .seek value => s.sctr value
  else s

/-- The DOUT bytes of a command (R122, R123, R140). -/
def State.dataOut (s : State) (i : Instr) : List Byte :=
  if Sent.succeeds s.ready i then mixBytes .xor i.dataBytes (s.stream i.dataBytes.length) else []

/-- The response of a command (R58, R140). -/
def State.response (s : State) (i : Instr) : Response :=
  if Sent.succeeds s.ready i then .ok else failureOf i

/-- The state after a command. -/
def State.answer (s : State) (i : Instr) : State := ((s.effect i).emit (s.dataOut i)).respond (s.response i)

/-! ### The effect, case by case -/

/-- A command but LOAD succeeds exactly where an instance exists (R142, R148). -/
theorem succeeds_of_not_load {i : Instr} (h : i.opcode ≠ .load) (ready : Bool) : Sent.succeeds ready i = ready := by
  cases i with
  | load => exact absurd rfl h
  | gen => rfl
  | enc => rfl
  | seek => rfl

theorem opcode_ne_load_of_isData {i : Instr} (h : i.isData = true) : i.opcode ≠ .load := by
  cases i with
  | load => cases h
  | gen => exact Opcode.noConfusion
  | enc => exact Opcode.noConfusion
  | seek => exact Opcode.noConfusion

theorem State.effect_of_fails {s : State} {i : Instr} (h : Sent.succeeds s.ready i = false) : s.effect i = s := by
  simp [State.effect, h]

theorem State.effect_load {s : State} {key : List Byte} {nonce : Vector Byte 8} {ctr0 : Dword} {m : StateMatrix}
    (h : Sent.succeeds s.ready (.load key nonce ctr0) = true) (hm : initMatrix key nonce ctr0 = some m) :
    s.effect (.load key nonce ctr0) = { s with x := m, off := 64, ready := true } := by
  simp [State.effect, h, hm]

theorem State.effect_data {s : State} (hr : s.ready = true) {i : Instr} (hi : i.isData = true) :
    s.effect i = s.afterData i.dataBytes.length := by
  cases i with
  | gen => simp [State.effect, Sent.succeeds, Instr.dataBytes, hr]
  | enc => simp [State.effect, Sent.succeeds, Instr.dataBytes, hr]
  | load => cases hi
  | seek => cases hi

theorem State.effect_seek {s : State} (hr : s.ready = true) (value : Dword) :
    s.effect (.seek value) = s.sctr value := by
  simp [State.effect, Sent.succeeds, hr]

/-- INIT has a matrix for both key lengths (R90). -/
theorem exists_initMatrix {key : List Byte} (hkey : key.length = 16 ∨ key.length = 32) (nonce : Vector Byte 8)
    (ctr0 : Dword) : ∃ m, initMatrix key nonce ctr0 = some m := by
  refine Option.ne_none_iff_exists'.1 fun hnone => ?_
  obtain ⟨h16, h32⟩ := (initMatrix_eq_none_iff key nonce ctr0).1 hnone
  exact hkey.elim h16 h32

/-- Everything the effect of a command can be: nothing, a new instance, data used, or a new counter. -/
theorem State.effect_cases (s : State) (i : Instr) :
    (Sent.succeeds s.ready i = false ∧ s.effect i = s) ∨
    (∃ key nonce ctr0 m, i = .load key nonce ctr0 ∧ (key.length = 16 ∨ key.length = 32) ∧
      initMatrix key nonce ctr0 = some m ∧ s.effect i = { s with x := m, off := 64, ready := true }) ∨
    (s.ready = true ∧ i.isData = true ∧ s.effect i = s.afterData i.dataBytes.length) ∨
    (s.ready = true ∧ ∃ value, i = .seek value ∧ s.effect i = s.sctr value) := by
  cases hs : Sent.succeeds s.ready i with
  | false => exact .inl ⟨rfl, State.effect_of_fails hs⟩
  | true =>
    cases i with
    | load key nonce ctr0 =>
      have hkey : key.length = 16 ∨ key.length = 32 := of_decide_eq_true hs
      obtain ⟨m, hm⟩ := exists_initMatrix hkey nonce ctr0
      exact .inr (.inl ⟨key, nonce, ctr0, m, rfl, hkey, hm, State.effect_load hs hm⟩)
    | gen len => exact .inr (.inr (.inl ⟨hs, rfl, State.effect_data hs rfl⟩))
    | enc data => exact .inr (.inr (.inl ⟨hs, rfl, State.effect_data hs rfl⟩))
    | seek value => exact .inr (.inr (.inr ⟨hs, value, rfl, State.effect_seek hs value⟩))

@[simp] theorem State.effect_input (s : State) (i : Instr) : (s.effect i).input = s.input := by
  obtain ⟨-, h⟩ | ⟨_, _, _, _, -, -, -, h⟩ | ⟨-, -, h⟩ | ⟨-, _, -, h⟩ := s.effect_cases i <;> simp [h]

@[simp] theorem State.effect_output (s : State) (i : Instr) : (s.effect i).output = s.output := by
  obtain ⟨-, h⟩ | ⟨_, _, _, _, -, -, -, h⟩ | ⟨-, -, h⟩ | ⟨-, _, -, h⟩ := s.effect_cases i <;> simp [h]

/-- An instance exists after a command where one existed or the command succeeds (R17). -/
theorem State.effect_ready (s : State) (i : Instr) : (s.effect i).ready = (s.ready || Sent.succeeds s.ready i) := by
  obtain ⟨hs, h⟩ | ⟨_, _, _, _, rfl, hkey, -, h⟩ | ⟨hr, -, h⟩ | ⟨hr, _, -, h⟩ := s.effect_cases i
  · simp [h, hs]
  · simp [h, Sent.succeeds, hkey]
  · simp [h, hr]
  · simp [h, hr]

/-! ### The DOUT bytes, case by case -/

theorem State.dataOut_of_fails {s : State} {i : Instr} (h : Sent.succeeds s.ready i = false) : s.dataOut i = [] := by
  simp [State.dataOut, h]

theorem State.dataOut_data {s : State} (hr : s.ready = true) {i : Instr} (hi : i.isData = true) :
    s.dataOut i = mixBytes .xor i.dataBytes (s.stream i.dataBytes.length) := by
  rw [State.dataOut, succeeds_of_not_load (opcode_ne_load_of_isData hi), if_pos hr]

/-- A GEN puts out the stream itself: it is an ENC of zero bytes (R111, R122). -/
theorem State.dataOut_gen {s : State} (hr : s.ready = true) (len : Word) :
    s.dataOut (.gen len) = s.stream len.toNat := by
  rw [State.dataOut_data hr rfl, Instr.dataBytes, List.length_replicate, mixBytes_xor_zero _ (length_stream _ _)]

/-- A command without data puts nothing out (R58). -/
theorem State.dataOut_of_no_data (s : State) {i : Instr} (h : i.dataBytes = []) : s.dataOut i = [] := by
  rw [State.dataOut, h]
  split <;> rfl

/-- A command that succeeds puts out a byte for each byte of its data (R58). -/
theorem State.length_dataOut {s : State} {i : Instr} (h : Sent.succeeds s.ready i = true) :
    (s.dataOut i).length = i.dataBytes.length := by
  rw [State.dataOut, if_pos h, length_mixBytes, length_stream, Nat.min_self]

/-! ### The answer, case by case -/

@[simp] theorem State.emit_nil (s : State) : s.emit [] = s := by
  simp [State.emit]

/-- A command that fails answers its error, and nothing else (R140, R145). -/
theorem State.answer_of_fails {s : State} {i : Instr} (h : Sent.succeeds s.ready i = false) :
    s.answer i = s.respond (failureOf i) := by
  rw [State.answer, State.effect_of_fails h, State.dataOut_of_fails h, State.emit_nil, State.response, h]
  rfl

/-- A command that succeeds answers OK after its bytes (R58). -/
theorem State.answer_of_succeeds {s : State} {i : Instr} (h : Sent.succeeds s.ready i = true) :
    s.answer i = ((s.effect i).emit (s.dataOut i)).respond .ok := by
  rw [State.answer, State.response, if_pos h]

/-- A data command with an instance: the stream's next bytes are used (R122, R123, R126). -/
theorem State.answer_data {s : State} (hr : s.ready = true) {i : Instr} (hi : i.isData = true) :
    s.answer i = ((s.afterData i.dataBytes.length).emit (s.dataOut i)).respond .ok := by
  rw [State.answer_of_succeeds (by rwa [succeeds_of_not_load (opcode_ne_load_of_isData hi)]), State.effect_data hr hi]

/-- A SEEK with an instance: the new counter (R124). -/
theorem State.answer_seek {s : State} (hr : s.ready = true) (value : Dword) :
    s.answer (.seek value) = (s.sctr value).respond .ok := by
  rw [State.answer_of_succeeds (i := .seek value) hr, State.effect_seek hr, State.dataOut_of_no_data _ rfl,
    State.emit_nil]

/-! ### `exec` is the answer -/

theorem exec_load_eq (key : List Byte) (nonce : Vector Byte 8) (ctr0 : Dword) (s : State) :
    exec (.load key nonce ctr0) s = .next (s.answer (.load key nonce ctr0)) := by
  obtain ⟨h16, h32, h⟩ | ⟨hkey, m, hm, h⟩ := execLoad_cases key nonce ctr0 s
  · have hs : Sent.succeeds s.ready (.load key nonce ctr0) = false := decide_eq_false (by tauto)
    rw [State.answer_of_fails hs]
    exact h
  · have hs : Sent.succeeds s.ready (.load key nonce ctr0) = true := decide_eq_true hkey
    rw [State.answer_of_succeeds hs, State.effect_load hs hm, s.dataOut_of_no_data rfl, State.emit_nil]
    exact h

/-- Where no instance exists every command but LOAD answers NOT_READY (R142). -/
theorem exec_of_not_ready {i : Instr} (hop : i.opcode ≠ .load) {s : State} (hr : s.ready = false) :
    exec i s = .next (s.respond .notReady) := by
  cases i with
  | load => exact absurd rfl hop
  | gen => exact if_neg (Bool.eq_false_iff.1 hr)
  | enc => exact if_neg (Bool.eq_false_iff.1 hr)
  | seek => exact if_neg (Bool.eq_false_iff.1 hr)

/-- A data command is MODIFY's closed form on its buffer, with the mixer of its opcode (R54, R120, R122, R123). -/
theorem exec_data_eq {i : Instr} (hi : i.isData = true) {s : State} (hr : s.ready = true) :
    exec i s = .next (s.answer i) := by
  rw [State.answer_data hr hi]
  cases i with
  | gen len =>
    simp [exec, execGen, hr, mixSel_gen, State.modify_eq, finishData, mixBytes_overwrite, State.dataOut_gen,
      Instr.dataBytes]
  | enc data =>
    rw [State.dataOut_data hr hi]
    simp [exec, execEnc, hr, mixSel_enc, State.modify_eq, finishData, dataBuffer, Instr.dataBytes]
  | load => cases hi
  | seek => cases hi

/-- Every command in every state has its answer, and never a fault or a refusal (R140, R148). -/
theorem exec_eq (i : Instr) (s : State) : exec i s = .next (s.answer i) := by
  by_cases hop : i.opcode = .load
  · cases i with
    | load key nonce ctr0 => exact exec_load_eq key nonce ctr0 s
    | gen => cases hop
    | enc => cases hop
    | seek => cases hop
  · cases hr : s.ready with
    | false =>
      rw [exec_of_not_ready hop hr, State.answer_of_fails (by rw [succeeds_of_not_load hop, hr])]
      cases i with
      | load => exact absurd rfl hop
      | gen => rfl
      | enc => rfl
      | seek => rfl
    | true =>
      cases i with
      | load => exact absurd rfl hop
      | gen => exact exec_data_eq rfl hr
      | enc => exact exec_data_eq rfl hr
      | seek value => rw [exec_seek_of_ready hr, State.answer_seek hr]

theorem exec_eq_next_iff {i : Instr} {s t : State} : exec i s = .next t ↔ t = s.answer i := by
  rw [exec_eq, Host.Outcome.next.injEq, eq_comm]

/-- A run of commands is their answers in order (R39). -/
theorem execAll_eq (is : List Instr) (s : State) : execAll is s = .next (is.foldl State.answer s) := by
  induction is generalizing s with
  | nil => rfl
  | cons i is ih => rw [execAll, exec_eq, List.foldl_cons, ← ih]

/-! ### What an answer leaves on the ports and of READY -/

@[simp] theorem State.answer_x (s : State) (i : Instr) : (s.answer i).x = (s.effect i).x := rfl
@[simp] theorem State.answer_ovb (s : State) (i : Instr) : (s.answer i).ovb = (s.effect i).ovb := rfl
@[simp] theorem State.answer_off (s : State) (i : Instr) : (s.answer i).off = (s.effect i).off := rfl
@[simp] theorem State.answer_ready (s : State) (i : Instr) : (s.answer i).ready = (s.effect i).ready := rfl
@[simp] theorem State.answer_input (s : State) (i : Instr) : (s.answer i).input = s.input := s.effect_input i

theorem State.answer_output (s : State) (i : Instr) :
    (s.answer i).output = s.output ++ (s.dataOut i).map .dout ++ [.rsp (s.response i)] := by
  rw [State.answer, State.respond_output, State.emit_output, State.effect_output]

theorem State.answer_dout (s : State) (i : Instr) : (s.answer i).dout = s.dout ++ s.dataOut i := by
  rw [State.answer, State.dout_respond, State.dout_emit, State.dout, State.effect_output, State.dout]

end Sys2Proof.Machine
end

section
/-! The statements about one command or one step: completion, data commands, errors, frames and READY (R14, R17, R58,
R122 to R124, R131, R140 to R148). -/

namespace Sys2Proof.Machine

/-! ### Completion (R148, R174) -/

/-- Settles O13: every command has its answer, and every other step is a next state by `step_cases`. -/
theorem stepNeverStops : Obligations.StepNeverStops := by
  refine ⟨fun s => ?_, fun i s => ⟨_, exec_eq i s⟩⟩
  obtain ⟨i, rest, -, h⟩ | ⟨e, rest, -, h⟩ | ⟨rest, -, h⟩ | ⟨-, h⟩ := step_cases s
  · exact ⟨_, h.trans (exec_eq i _)⟩
  · exact ⟨_, h⟩
  · exact ⟨_, h⟩
  · exact ⟨_, h⟩

/-! ### Data commands (R120 to R126) -/

/-- The answer of a data command as a record: the closed form, and what it puts on the ports. -/
theorem State.answer_data_eq {s : State} (hr : s.ready = true) {i : Instr} (hi : i.isData = true) :
    s.answer i = { s.afterData i.dataBytes.length with
      output := s.output ++ (s.dataOut i).map .dout ++ [.rsp .ok] } := by
  rw [State.answer_data hr hi, State.respond, State.emit, State.afterData_output]

/-- Settles O33: GEN's answer, with the stream for its bytes. -/
theorem genEmitsKeystream : Obligations.GenEmitsKeystream := by
  intro len s hr
  rw [exec_eq, State.answer_data_eq hr rfl, State.dataOut_gen hr, Instr.dataBytes, List.length_replicate]

/-- Settles O34: ENC's answer, its bytes mixed with the stream by the XOR mixer. -/
theorem encEmitsDataXorKeystream : Obligations.EncEmitsDataXorKeystream := by
  intro data s hr
  rw [exec_eq, State.answer_data_eq hr rfl, State.dataOut_data hr rfl, Instr.dataBytes, mixBytes_xor]

/-- Settles O40: the bytes are the stream's and the state is the closed form's, both chosen before the buffer. -/
theorem mixersReadTheirOwnByteOnly : Obligations.MixersReadTheirOwnByteOnly := by
  refine fun s n => ⟨s.stream n, s.afterData n, length_stream s n, fun buf hbuf => ?_⟩
  subst hbuf
  exact ⟨by rw [State.modify_eq, mixBytes_overwrite (length_stream s _).symm], State.modify_eq s .xor buf⟩

/-- Settles O41: with an instance the two answers have the same data; without one both are NOT_READY. -/
theorem encOfZerosIsGen : Obligations.EncOfZerosIsGen := by
  intro len s
  cases hr : s.ready with
  | true =>
    rw [exec_eq, exec_eq, State.answer_data hr rfl, State.answer_data hr rfl, State.dataOut_data hr rfl,
      State.dataOut_data hr rfl]
    rfl
  | false => rw [exec_of_not_ready Opcode.noConfusion hr, exec_of_not_ready Opcode.noConfusion hr]

/-- Settles O42: whole blocks from an empty buffer change the counter only. -/
theorem fastPathLeavesBuffer : Obligations.FastPathLeavesBuffer := by
  intro i s hi hr ho hn
  have he : s.effect i = _ := (State.effect_data hr hi).trans (State.afterData_of_whole_blocks ho hn)
  refine ⟨_, exec_eq i s, ?_, ?_, ?_⟩
  · rw [State.answer_ovb, he]
  · rw [State.answer_off, he]
  · rw [State.ctr, State.answer_x, he]
    exact counterOf_withCounter _ _

/-- A GEN can ask for all the leftover bytes: there are at most 64. -/
theorem State.toNat_ofNat_leftover (s : State) : (BitVec.ofNat 32 s.leftover).toNat = s.leftover :=
  toNat_ofNat_of_le (by have := s.leftover_add_off; omega)

/-- Settles O43: the request is within the leftover bytes, so only the cursor moves, by all of them. -/
theorem drainDoesNotRefill : Obligations.DrainDoesNotRefill := by
  intro s hr
  have hlen := s.toNat_ofNat_leftover
  have he : s.effect (.gen (BitVec.ofNat 32 s.leftover)) = _ :=
    (State.effect_data hr rfl).trans (s.afterData_of_le (by simp [Instr.dataBytes, hlen]))
  refine ⟨_, exec_eq _ s, ?_, Fin.ext ?_, ?_, ?_, ?_⟩
  · rw [State.answer_dout, State.dataOut_gen hr, hlen, s.stream_of_le (Nat.le_refl _), List.take_of_length_le]
    simp [State.leftover]
  · have hoff := s.leftover_add_off
    simp only [State.answer_off, he, Instr.dataBytes, List.length_replicate, hlen]
    rw [Nat.add_comm]
    exact hoff
  · rw [State.answer_x, he]
  · rw [State.answer_ovb, he]
  · rw [State.answer_ready, he, hr]

/-- A data command of length zero only answers OK (R122). -/
theorem exec_no_data {i : Instr} (hi : i.isData = true) (hd : i.dataBytes = []) {s : State} (hr : s.ready = true) :
    exec i s = .next (s.respond .ok) := by
  rw [exec_eq, State.answer_data hr hi, s.dataOut_of_no_data hd, State.emit_nil, hd, List.length_nil,
    State.afterData_zero]

/-- Settles O44: both commands have no data. -/
theorem zeroLengthIsNoOp : Obligations.ZeroLengthIsNoOp :=
  fun _ hr => ⟨exec_no_data rfl rfl hr, exec_no_data rfl rfl hr⟩

/-! ### SEEK (R36, R124) -/

/-- Settles O38: the second write of the counter covers the first, and the counter's own value written back changes
nothing. -/
theorem lastSeekCounts : Obligations.LastSeekCounts := by
  intro s hr
  refine ⟨fun a b => ⟨_, _, execAll_eq _ s, exec_eq _ s, ?_⟩, ?_⟩
  · simp [State.answer_seek, hr, State.respond, State.sctr]
  · rw [exec_eq, State.answer_seek hr, State.sctr, State.ctr, withCounter_counterOf]
    rfl

/-! ### Errors (R140 to R145) -/

/-- Settles O36: with no instance the answer is NOT_READY; of a frame that is sent, all of it is taken first. -/
theorem notReadyChangesNothing : Obligations.NotReadyChangesNothing := by
  refine fun s hr => ⟨fun len => exec_of_not_ready Opcode.noConfusion hr,
    fun data => exec_of_not_ready Opcode.noConfusion hr, fun value => exec_of_not_ready Opcode.noConfusion hr,
    fun i rest hw hop hin => ?_⟩
  rw [step_encode_append hw hin]
  exact exec_of_not_ready hop hr

/-- LOAD with a key length that is not 16 and not 32 answers INVALID_KEY_SIZE (R141). -/
theorem exec_load_of_wrong_length {key : List Byte} (h16 : key.length ≠ 16) (h32 : key.length ≠ 32)
    (nonce : Vector Byte 8) (ctr0 : Dword) (s : State) :
    exec (.load key nonce ctr0) s = .next (s.respond .invalidKeySize) := by
  have hs : Sent.succeeds s.ready (.load key nonce ctr0) = false := decide_eq_false (by tauto)
  rw [exec_eq, State.answer_of_fails hs]
  rfl

/-- Settles O37: the whole frame is taken, and the command answers its error. -/
theorem wrongKeyLengthRefused : Obligations.WrongKeyLengthRefused := by
  intro key nonce ctr0 s rest hle h16 h32 hin
  rw [step_encode_append (i := .load key nonce ctr0) (decide_eq_true hle) hin]
  exact exec_load_of_wrong_length h16 h32 nonce ctr0 _

/-- An error response is one a command of its opcode can give (R140). -/
theorem failureOf_cases (i : Instr) :
    (failureOf i = .invalidKeySize ∧ i.opcode = .load) ∨ (failureOf i = .notReady ∧ i.opcode ≠ .load) := by
  cases i with
  | load => exact .inl ⟨rfl, rfl⟩
  | gen => exact .inr ⟨rfl, Opcode.noConfusion⟩
  | enc => exact .inr ⟨rfl, Opcode.noConfusion⟩
  | seek => exact .inr ⟨rfl, Opcode.noConfusion⟩

theorem failureOf_ne_ok (i : Instr) : failureOf i ≠ .ok := by
  obtain ⟨h, -⟩ | ⟨h, -⟩ := failureOf_cases i <;> rw [h] <;> decide

/-- The response is OK exactly when the command succeeds (R58, R140). -/
theorem State.response_eq_ok_iff (s : State) (i : Instr) : s.response i = .ok ↔ Sent.succeeds s.ready i = true := by
  unfold State.response
  split_ifs with h
  · exact iff_of_true rfl h
  · exact iff_of_false (failureOf_ne_ok i) h

theorem State.fails_of_response_ne_ok {s : State} {i : Instr} (h : s.response i ≠ .ok) :
    Sent.succeeds s.ready i = false :=
  Bool.eq_false_iff.2 (mt (s.response_eq_ok_iff i).2 h)

/-- Settles O52: the output of an answer is its bytes and then its response; the bytes are none if it fails, and one for
each byte of data if not. -/
theorem oneResponseAfterTheBytes : Obligations.OneResponseAfterTheBytes := by
  intro i s t h
  obtain rfl := exec_eq_next_iff.1 h
  refine ⟨s.dataOut i, s.response i, s.answer_output i, fun hr => ?_, fun hr => ?_, ?_⟩
  · exact State.dataOut_of_fails (State.fails_of_response_ne_ok hr)
  · exact State.length_dataOut ((s.response_eq_ok_iff i).1 hr)
  · unfold State.response
    split_ifs
    · exact .inl rfl
    · exact .inr (failureOf_cases i)

/-- Settles O53: the last thing on the ports is the answer's own response, and a command that fails answers nothing
else. -/
theorem errorsKeepEveryBit : Obligations.ErrorsKeepEveryBit := by
  intro i s t r h hlast hne
  obtain rfl := exec_eq_next_iff.1 h
  rw [State.answer_output, List.getLast?_concat] at hlast
  have hresp : s.response i = r := Output.rsp.inj (Option.some.inj hlast)
  have hs := State.fails_of_response_ne_ok (hresp ▸ hne)
  have hfail : failureOf i = r := by rw [← hresp, State.response, hs]; rfl
  rw [State.answer_of_fails hs, hfail]
  rfl

/-! ### Frames and READY (R14, R17) -/

/-- Settles O54: each of the four things the effect of a command can be, held against its opcode. -/
theorem commandFrames : Obligations.CommandFrames := by
  intro i s t h
  obtain rfl := exec_eq_next_iff.1 h
  rw [State.answer_ready, State.answer_x, State.answer_ovb, State.answer_off, State.answer_input]
  obtain ⟨-, he⟩ | ⟨key, nonce, ctr0, m, rfl, -, -, he⟩ | ⟨-, hi, he⟩ | ⟨-, value, rfl, he⟩ := s.effect_cases i <;>
    rw [he]
  · exact ⟨fun _ => ⟨rfl, fun _ _ _ _ => rfl⟩, fun _ => rfl, fun _ => rfl, rfl⟩
  · exact ⟨fun hop => absurd rfl hop, fun _ => rfl, Opcode.noConfusion, rfl⟩
  · have hseek : i.opcode ≠ .seek := by cases i <;> cases hi <;> exact Opcode.noConfusion
    refine ⟨fun _ => ⟨State.afterData_ready _ _, ?_⟩, fun hop => ?_, fun hop => absurd hop hseek, rfl⟩
    · rw [State.afterData_x_eq]
      exact withCounter_other _ _
    · exact absurd hop (not_or.2 ⟨opcode_ne_load_of_isData hi, hseek⟩)
  · exact ⟨fun _ => ⟨rfl, withCounter_other _ _⟩, fun _ => rfl, fun _ => rfl, rfl⟩

/-- Where none existed, an instance comes from a LOAD with a right key, and from nothing else (R17). -/
theorem succeeds_false_iff (i : Instr) : Sent.succeeds false i = true ↔
    ∃ key nonce ctr0, i = .load key nonce ctr0 ∧ (key.length = 16 ∨ key.length = 32) := by
  cases i <;> simp [Sent.succeeds]

/-- READY after a command (R17). -/
theorem State.answer_ready_iff (s : State) (i : Instr) : (s.answer i).ready = true ↔
    s.ready = true ∨ ∃ key nonce ctr0, i = .load key nonce ctr0 ∧ (key.length = 16 ∨ key.length = 32) := by
  rw [State.answer_ready, State.effect_ready, ← succeeds_false_iff]
  cases s.ready <;> simp

/-- Settles O55: an answer keeps READY and the answer to an illegal header does too, so a step that clears it has
fetched RST. -/
theorem readySetByLoadClearedByReset : Obligations.ReadySetByLoadClearedByReset := by
  refine ⟨fun i s t h => ?_, fun s t h hs ht => ?_, fun i s hop hr => exec_of_not_ready hop hr, rfl⟩
  · rw [exec_eq_next_iff.1 h]
    exact s.answer_ready_iff i
  · obtain ⟨i, rest, -, hstep⟩ | ⟨e, rest, -, hstep⟩ | ⟨rest, hfetch, -⟩ | ⟨-, hstep⟩ := step_cases s
    · have hready : t.ready = true := by
        rw [exec_eq_next_iff.1 (hstep.symm.trans h)]
        exact (State.answer_ready_iff _ i).2 (.inl hs)
      rw [hready] at ht
      cases ht
    · cases hstep.symm.trans h
      cases hs.symm.trans ht
    · obtain ⟨hd, ha⟩ := decode_of_fetch_reset hfetch
      exact ⟨hd, rest, ha⟩
    · cases hstep.symm.trans h
      cases hs.symm.trans ht

end Sys2Proof.Machine
end

section
/-! The invariant of the machine (R14, R17, R92, R114) and what the ports never show (R23, R114). -/

namespace Sys2Proof.Machine

/-! ### The invariant -/

/-- A legal matrix, an empty buffer: what LOAD leaves (R91). -/
theorem State.inv_of_empty {s : State} (ho : s.off = 64) (hx : s.ready = true → LegalMatrix s.x) : s.Inv where
  cursor := by rw [ho]; decide
  noInstance _ := ho
  matrix := hx
  leftoverBlock h := by rw [ho] at h; exact absurd h (by decide)

/-- The invariant does not speak of the ports. -/
theorem State.Inv.of_same_block {s t : State} (h : s.Inv) (hx : t.x = s.x) (hovb : t.ovb = s.ovb) (ho : t.off = s.off)
    (hr : t.ready = s.ready) : t.Inv where
  cursor := ho ▸ h.cursor
  noInstance hn := ho ▸ h.noInstance (hr ▸ hn)
  matrix hn := hx ▸ h.matrix (hr ▸ hn)
  leftoverBlock hl := by rw [hx, hovb]; exact h.leftoverBlock (ho ▸ hl)

/-- A cursor that is not 0 is positive. -/
theorem State.Inv.off_pos {s : State} (h : s.Inv) : 0 < s.off.val :=
  Nat.pos_of_ne_zero fun h0 => h.cursor (Fin.ext h0)

/-- Using data keeps the invariant: only the counter of `X` moves, and a new `OVB` is a block of the same key and nonce
(R114). -/
theorem State.Inv.afterData {s : State} (h : s.Inv) (hr : s.ready = true) (n : Nat) : (s.afterData n).Inv where
  cursor h0 := Nat.ne_of_gt (State.afterData_off_pos h.off_pos n) (congrArg Fin.val h0)
  noInstance hn := by rw [State.afterData_ready, hr] at hn; cases hn
  matrix _ := by rw [State.afterData_x_eq]; exact legalMatrix_withCounter (h.matrix hr) _
  leftoverBlock hl := by
    have hks (c : Dword) : keystreamBlock (s.afterData n).x c = keystreamBlock s.x c := by
      rw [State.afterData_x_eq, keystreamBlock_withCounter]
    simp only [hks]
    obtain ⟨hle, hovb⟩ | hempty | hblock := s.afterData_ovb n
    · rw [State.afterData_off_val, if_pos hle] at hl
      rw [hovb]
      exact h.leftoverBlock (by omega)
    · rw [hempty] at hl
      exact absurd hl (by decide)
    · exact hblock

/-- A new counter keeps the invariant: no block depends on the counter held (R98, R124). -/
theorem State.Inv.sctr {s : State} (h : s.Inv) (value : Dword) : (s.sctr value).Inv where
  cursor := h.cursor
  noInstance := h.noInstance
  matrix hr := legalMatrix_withCounter (h.matrix hr) value
  leftoverBlock hl := by simpa using h.leftoverBlock hl

/-- Every command keeps the invariant. -/
theorem State.Inv.effect {s : State} (h : s.Inv) (i : Instr) : (s.effect i).Inv := by
  obtain ⟨-, he⟩ | ⟨_, _, _, m, -, -, hm, he⟩ | ⟨hr, -, he⟩ | ⟨-, value, -, he⟩ := s.effect_cases i <;> rw [he]
  · exact h
  · exact State.inv_of_empty rfl fun _ => legalMatrix_initMatrix hm
  · exact h.afterData hr _
  · exact h.sctr value

/-- Settles O56: a command keeps the invariant whatever stands on the ports, an illegal header touches the ports only,
and RST leaves the buffer empty and no instance. -/
theorem stepKeepsInvariant : Obligations.StepKeepsInvariant := by
  intro s t h hstep
  obtain ⟨i, rest, -, he⟩ | ⟨e, rest, -, he⟩ | ⟨rest, -, he⟩ | ⟨-, he⟩ := step_cases s <;> rw [he] at hstep
  · rw [exec_eq_next_iff.1 hstep]
    have hin : State.Inv { s with input := rest } := h.of_same_block rfl rfl rfl rfl
    exact (hin.effect i).of_same_block rfl rfl rfl rfl
  · cases hstep
    exact h.of_same_block rfl rfl rfl rfl
  · cases hstep
    exact State.inv_of_empty rfl Bool.noConfusion
  · cases hstep
    exact h

/-- Settles O57: after reset the buffer is empty and no instance exists. -/
theorem resetMeetsInvariant : Obligations.ResetMeetsInvariant :=
  State.inv_of_empty rfl Bool.noConfusion

/-! ### What the ports never show -/

/-- Agreeing states with an instance are alike in all that a data command reads. -/
theorem State.Agree.alike {s t : State} (h : s.Agree t) (hr : s.ready = true) : s.Alike t :=
  ⟨h.matrix hr, h.off, h.leftover⟩

theorem State.Alike.agree {s t : State} (h : s.Alike t) (hr : s.ready = t.ready) (hin : s.input = t.input)
    (hout : s.output = t.output) : s.Agree t :=
  ⟨hr, h.off, hin, hout, fun _ => h.x, h.leftover⟩

/-- LOAD and SEEK have no data. -/
theorem dataBytes_of_not_isData {i : Instr} (h : ¬ i.isData = true) : i.dataBytes = [] := by
  cases i with
  | load => rfl
  | seek => rfl
  | gen => exact absurd rfl h
  | enc => exact absurd rfl h

/-- A command puts the same bytes out from states that agree (R23, R114). -/
theorem State.Agree.dataOut {s t : State} (h : s.Agree t) (i : Instr) : s.dataOut i = t.dataOut i := by
  by_cases hi : i.isData = true
  · cases hr : s.ready with
    | true =>
      rw [State.dataOut_data hr hi, State.dataOut_data (h.ready ▸ hr) hi, (h.alike hr).stream]
    | false =>
      have hfail : Sent.succeeds false i = false := succeeds_of_not_load (opcode_ne_load_of_isData hi) _
      rw [State.dataOut_of_fails (by rw [hr, hfail]), State.dataOut_of_fails (by rw [← h.ready, hr, hfail])]
  · rw [s.dataOut_of_no_data (dataBytes_of_not_isData hi), t.dataOut_of_no_data (dataBytes_of_not_isData hi)]

/-- A command has the same effect on states that agree (R23, R114). -/
theorem State.Agree.effect {s t : State} (h : s.Agree t) (i : Instr) : (s.effect i).Agree (t.effect i) := by
  obtain ⟨hs, he⟩ | ⟨key, nonce, ctr0, m, rfl, hkey, hm, he⟩ | ⟨hr, hi, he⟩ | ⟨hr, value, rfl, he⟩ :=
    s.effect_cases i <;> rw [he]
  · rw [State.effect_of_fails (h.ready ▸ hs)]
    exact h
  · rw [State.effect_load (decide_eq_true hkey) hm]
    exact ⟨rfl, rfl, h.input, h.output, fun _ => rfl, fun j hj hle => absurd hj (Nat.not_lt.2 hle)⟩
  · rw [State.effect_data (h.ready ▸ hr) hi]
    exact ((h.alike hr).afterData _).agree (by simp [h.ready]) (by simp [h.input]) (by simp [h.output])
  · rw [State.effect_seek (h.ready ▸ hr)]
    have hx : withCounter s.x value = withCounter t.x value := by rw [h.matrix hr]
    exact State.Alike.agree ⟨hx, h.off, h.leftover⟩ h.ready h.input h.output

/-- States that agree answer alike (R23, R114). -/
theorem State.Agree.answer {s t : State} (h : s.Agree t) (i : Instr) : (s.answer i).Agree (t.answer i) := by
  have he := h.effect i
  refine ⟨he.ready, he.off, he.input, ?_, he.matrix, he.leftover⟩
  rw [State.answer_output, State.answer_output, h.output, h.dataOut, State.response, State.response, h.ready]

/-- Settles O58: the two steps fetch the same, and a command, an illegal header, RST and waiting each keep agreement. -/
theorem hiddenStateIsUnobservable : Obligations.HiddenStateIsUnobservable := by
  intro s t h
  have hrest (rest : List Input) : State.Agree { s with input := rest } { t with input := rest } :=
    ⟨h.ready, h.off, rfl, h.output, h.matrix, h.leftover⟩
  cases hf : fetch s.input with
  | instr i rest =>
    refine ⟨_, _, (step_of_fetch_instr hf).trans (exec_eq i _),
      (step_of_fetch_instr (h.input ▸ hf)).trans (exec_eq i _), (hrest rest).answer i⟩
  | illegal e rest =>
    refine ⟨_, _, step_of_fetch_illegal hf, step_of_fetch_illegal (h.input ▸ hf),
      ⟨h.ready, h.off, rfl, ?_, h.matrix, h.leftover⟩⟩
    rw [State.raiseError_output, State.raiseError_output, h.output]
  | reset rest =>
    exact ⟨_, _, step_of_fetch_reset hf, step_of_fetch_reset (h.input ▸ hf),
      ⟨rfl, rfl, rfl, h.output, fun _ => rfl, fun _ _ _ => rfl⟩⟩
  | wait => exact ⟨s, t, step_of_fetch_wait hf, step_of_fetch_wait (h.input ▸ hf), h⟩

end Sys2Proof.Machine
end

section
/-! Runs of data commands: together they use the stream of one request (R125, R127, R128, R169). -/

namespace Sys2Proof.Machine

/-- Commands of data leave a state alike to that of one request for all their data, and put the data out mixed with the
stream, piece by piece (R127). -/
theorem foldl_answer_data (cmds : List Instr) (s : State) (hr : s.ready = true) (hdata : ∀ i ∈ cmds, i.isData = true) :
    (cmds.foldl State.answer s).ready = true ∧
    (cmds.foldl State.answer s).Alike (s.afterData (cmds.flatMap Instr.dataBytes).length) ∧
    (cmds.foldl State.answer s).dout =
      s.dout ++ mixBytes .xor (cmds.flatMap Instr.dataBytes) (s.stream (cmds.flatMap Instr.dataBytes).length) := by
  induction cmds generalizing s with
  | nil => exact ⟨hr, by simpa using State.Alike.refl s, by simp [mixBytes]⟩
  | cons i is ih =>
    have hi : i.isData = true := hdata i List.mem_cons_self
    have halike : (s.answer i).Alike (s.afterData i.dataBytes.length) := by
      rw [State.answer_data hr hi]
      exact ⟨rfl, rfl, fun _ _ _ => rfl⟩
    have hready : (s.answer i).ready = true := (s.answer_ready_iff i).2 (.inl hr)
    obtain ⟨hend, hstate, hout⟩ := ih (s.answer i) hready fun j hj => hdata j (List.mem_cons_of_mem i hj)
    rw [List.foldl_cons, List.flatMap_cons, List.length_append]
    refine ⟨hend, hstate.trans ((halike.afterData _).trans (s.afterData_add _ _)), ?_⟩
    rw [hout, State.answer_dout, State.dataOut_data hr hi, halike.stream, s.stream_add,
      mixBytes_append .xor (length_stream s _).symm, List.append_assoc]

/-- Data commands with the same data, cut in another way, put out the same bytes and leave alike states (R127). -/
theorem foldl_answer_same_data {cmds cmds' : List Instr} {s : State} (hr : s.ready = true)
    (hcmds : ∀ i ∈ cmds, i.isData = true) (hcmds' : ∀ i ∈ cmds', i.isData = true)
    (hsame : cmds.flatMap Instr.dataBytes = cmds'.flatMap Instr.dataBytes) :
    (cmds.foldl State.answer s).dout = (cmds'.foldl State.answer s).dout ∧
      (cmds.foldl State.answer s).Alike (cmds'.foldl State.answer s) := by
  obtain ⟨-, hstate, hout⟩ := foldl_answer_data cmds s hr hcmds
  obtain ⟨-, hstate', hout'⟩ := foldl_answer_data cmds' s hr hcmds'
  rw [hsame] at hstate hout
  exact ⟨hout.trans hout'.symm, hstate.trans hstate'.symm⟩

/-- A cut request is the whole request: the shape of both statements of R127. -/
theorem execAll_same_data {cmds : List Instr} {i : Instr} {s : State} (hr : s.ready = true)
    (hcmds : ∀ j ∈ cmds, j.isData = true) (hi : i.isData = true) (hsame : cmds.flatMap Instr.dataBytes = i.dataBytes) :
    ∃ t u, execAll cmds s = .next t ∧ exec i s = .next u ∧ t.dout = u.dout ∧ t.x = u.x ∧ t.off = u.off ∧
      ∀ (j : Nat) (h : j < 64), t.off.val ≤ j → t.ovb[j] = u.ovb[j] := by
  obtain ⟨hout, halike⟩ := foldl_answer_same_data (cmds' := [i]) hr hcmds (by simpa using hi) (by simpa using hsame)
  exact ⟨_, _, execAll_eq cmds s, exec_eq i s, hout, halike.x, halike.off, halike.leftover⟩

/-- GEN commands have zeros for data, as many as their lengths together. -/
theorem flatMap_dataBytes_gen (lens : List Word) :
    (lens.map Instr.gen).flatMap Instr.dataBytes = List.replicate (lens.map BitVec.toNat).sum 0 := by
  induction lens with
  | nil => rfl
  | cons n ns ih =>
    rw [List.map_cons, List.flatMap_cons, ih, Instr.dataBytes, List.map_cons, List.sum_cons, List.replicate_add]

/-- Settles O45: the pieces have the zeros of the one request for their data. -/
theorem genPartitionIsOneRequest : Obligations.GenPartitionIsOneRequest := by
  intro lens s hr hsum
  refine execAll_same_data hr (by simp [Instr.isData]) rfl ?_
  rw [flatMap_dataBytes_gen, Instr.dataBytes, BitVec.toNat_ofNat, Nat.mod_eq_of_lt hsum]

/-- Settles O46: the pieces are the data. -/
theorem encPartitionIsOneRequest : Obligations.EncPartitionIsOneRequest := by
  intro pieces s hr
  refine execAll_same_data hr (by simp [Instr.isData]) rfl ?_
  induction pieces with
  | nil => rfl
  | cons p ps ih => rw [List.map_cons, List.flatMap_cons, ih]; rfl

/-- GENBIG's commands ask for as many zeros as it has bytes: `n = (2^32 - 1)·(n div (2^32 - 1)) + n mod (2^32 - 1)`
(R61). -/
theorem flatMap_dataBytes_genBig (n : Nat) : (genBigCommands n).flatMap Instr.dataBytes = List.replicate n 0 := by
  have hmap : genBigCommands n =
      (List.replicate (n / 4294967295) 0xffffffff ++ [BitVec.ofNat 32 (n % 4294967295)]).map Instr.gen := by
    simp [genBigCommands]
  rw [hmap, flatMap_dataBytes_gen]
  congr 1
  simp
  omega

/-- Settles O50: GENBIG's commands are data commands whose data are `n` zeros. -/
theorem genBigIsOneLongRequest : Obligations.GenBigIsOneLongRequest := by
  intro n s hr
  have hdata : ∀ i ∈ genBigCommands n, i.isData = true := by
    simp only [genBigCommands, List.mem_append, List.mem_replicate, List.mem_singleton]
    rintro i (⟨-, rfl⟩ | rfl) <;> rfl
  obtain ⟨-, hstate, hout⟩ := foldl_answer_data _ s hr hdata
  rw [flatMap_dataBytes_genBig, List.length_replicate] at hstate hout
  rw [mixBytes_xor_zero n (length_stream s n)] at hout
  exact ⟨_, execAll_eq _ s, hout, hstate.x, hstate.off⟩

/-- The XOR mixer with the same stream gives the data back (R111). -/
theorem mixBytes_xor_mixBytes_xor {data ks : List Byte} (h : data.length = ks.length) :
    mixBytes .xor (mixBytes .xor data ks) ks = data := by
  apply List.ext_getElem
  · simp [length_mixBytes, h]
  · intro k _ _
    simp only [mixBytes, List.getElem_zipWith]
    exact mix_xor_mix_xor _ _

/-- Settles O48: alike states have the same stream, and it is mixed in twice. -/
theorem encryptThenDecrypt : Obligations.EncryptThenDecrypt := by
  intro data s u hs hu hx ho hovb
  have halike : s.Alike u := ⟨hx, ho, hovb⟩
  refine ⟨s.dataOut (.enc data), _, _, exec_eq _ s, s.answer_dout _, exec_eq _ u, ?_⟩
  have hlen : (s.dataOut (.enc data)).length = data.length := State.length_dataOut (i := .enc data) hs
  rw [State.answer_dout, State.dataOut_data hu rfl, Instr.dataBytes, hlen, ← halike.stream, State.dataOut_data hs rfl,
    Instr.dataBytes, mixBytes_xor_mixBytes_xor (length_stream s _).symm]

end Sys2Proof.Machine
end

section
/-! The mixing datapath: the order of the words, what a column depends on, the cache, and the bytes of a block (R31, R73
to R77, R97). -/

namespace Sys2Proof.Machine

/-- Settles O17: each of the four quadruples, of the columns and of the rows, is read off the two definitions. -/
theorem roundsStartAtTheDiagonal : Obligations.RoundsStartAtTheDiagonal := by
  intro x j h
  match j, h with
  | 0, _ | 1, _ | 2, _ | 3, _ => exact ⟨rfl, rfl⟩

/-- The transposed matrix: word `i` is word `T(i)` (R75). -/
def transpose (y : StateMatrix) : StateMatrix :=
  Vector.ofFn fun i : Fin 16 => y[4 * (i.val % 4) + i.val / 4]'(by omega)

theorem getElem_transpose (y : StateMatrix) (i : Nat) (h : i < 16) :
    (transpose y)[i] = y[4 * (i % 4) + i / 4]'(by omega) := by
  simp [transpose]

/-- Word `T(i)` of RROUND is word `i` of CROUND of the transposed matrix: row `j` enters QR as the transposed matrix's
column `j` does (R74, R75). -/
theorem getElem_rowRound_eq_columnRound_transpose (y : StateMatrix) (i : Nat) (h : i < 16) :
    (rowRound y)[4 * (i % 4) + i / 4]'(by omega) = (columnRound (transpose y))[i] := by
  rw [columnRound]
  simp only [getElem_transpose]
  interval_cases i <;> rfl

/-- Settles O18: a matrix with the words of the transposed one is it. -/
theorem rowRoundIsTransposedColumnRound : Obligations.RowRoundIsTransposedColumnRound := by
  intro y yT hyT i h _
  have htrans : yT = transpose y := by
    ext1 j hj
    rw [hyT j hj (by omega), getElem_transpose]
  rw [htrans]
  exact getElem_rowRound_eq_columnRound_transpose y i h

/-- The four words of a column of CROUND depend on that column of its argument only: they are one QR of it (R74). -/
theorem columnRound_column_congr {x y : StateMatrix} {k : Nat} (hk : k < 4)
    (hcol : ∀ (i : Nat) (hi : i < 16), i % 4 = k → x[i] = y[i]) :
    (⟨(columnRound x)[5 * k]'(by omega), (columnRound x)[(5 * k + 4) % 16]'(by omega),
      (columnRound x)[(5 * k + 8) % 16]'(by omega), (columnRound x)[(5 * k + 12) % 16]'(by omega)⟩ : Quad) =
    ⟨(columnRound y)[5 * k]'(by omega), (columnRound y)[(5 * k + 4) % 16]'(by omega),
      (columnRound y)[(5 * k + 8) % 16]'(by omega), (columnRound y)[(5 * k + 12) % 16]'(by omega)⟩ := by
  rw [← (roundsStartAtTheDiagonal x k hk).1, ← (roundsStartAtTheDiagonal y k hk).1]
  congr 1 <;> exact hcol _ _ (by omega)

/-- The quadruple of a column holds each of the column's indices. -/
theorem mem_quadruple : ∀ j < 16, 5 * (j % 4) = j ∨ (5 * (j % 4) + 4) % 16 = j ∨ (5 * (j % 4) + 8) % 16 = j ∨
    (5 * (j % 4) + 12) % 16 = j := by
  decide

/-- A word of CROUND depends on its own column of the argument only (R74). -/
theorem getElem_columnRound_congr {x y : StateMatrix} {j : Nat} (h : j < 16)
    (hcol : ∀ (i : Nat) (hi : i < 16), i % 4 = j % 4 → x[i] = y[i]) : (columnRound x)[j] = (columnRound y)[j] := by
  obtain ⟨h0, h4, h8, h12⟩ := Quad.mk.inj (columnRound_column_congr (Nat.mod_lt j (by decide)) hcol)
  have hj : 5 * (j % 4) = j ∨ (5 * (j % 4) + 4) % 16 = j ∨ (5 * (j % 4) + 8) % 16 = j ∨
      (5 * (j % 4) + 12) % 16 = j := mem_quadruple j h
  obtain hj | hj | hj | hj := hj
  · simpa only [hj] using h0
  · simpa only [hj] using h4
  · simpa only [hj] using h8
  · simpa only [hj] using h12

/-- Settles O19: words 8 and 9 stand in columns 0 and 1. -/
theorem columnRoundStaleWords : Obligations.ColumnRoundStaleWords := by
  refine fun x v j h => ⟨fun hj => ?_, fun hj => ?_⟩ <;>
    exact getElem_columnRound_congr h fun i hi hij => Vector.getElem_set_ne _ _ (by omega)

/-- Settles O20: the cached words are CROUND's, and ten double-rounds begin with it. -/
theorem cacheIsUnobservable : Obligations.CacheIsUnobservable := by
  intro cache x h
  have hcache : cache = columnRound x := Vector.ext h
  rw [hcache]
  rfl

/-- Settles O21: the block's byte is its word's byte, the word is ten double-rounds and the feed-forward, and four bytes
make the word they are of. -/
theorem blockBytesAreLittleEndian : Obligations.BlockBytesAreLittleEndian := by
  refine ⟨fun x i j b hi hj hb => ?_, getElem_coreWords, fun w b0 b1 b2 b3 h => ?_⟩
  · have hdiv : (4 * i + j) / 4 = i := by omega
    have hmod : (4 * i + j) % 4 = j := by omega
    rw [core20, getElem_serialize]
    simp only [hdiv, hmod, wordByte, BitVec.getLsbD_extractLsb', hb, decide_true, Bool.true_and]
  · simp only [bytesLe32, List.cons.injEq, and_true] at h
    obtain ⟨rfl, rfl, rfl, rfl⟩ := h
    exact le32_wordByte w

end Sys2Proof.Machine
end

section
/-! The block generator: the named constants, LOAD, the counter and the block of a counter (R90 to R98). -/

namespace Sys2Proof.Machine

/-- Settles O22: the bytes of the eight words are read off as characters. -/
theorem constantWordsSpellTheStrings : Obligations.ConstantWordsSpellTheStrings := by
  unfold Obligations.ConstantWordsSpellTheStrings
  exact ⟨by decide, by decide⟩

/-- A word of a byte string by its four bytes (R32). -/
theorem wordAt_eq_getD (bs : List Byte) (j : Nat) (h : 4 * j + 4 ≤ bs.length) :
    wordAt bs j h =
      le32 (bs.getD (4 * j) 0) (bs.getD (4 * j + 1) 0) (bs.getD (4 * j + 2) 0) (bs.getD (4 * j + 3) 0) := by
  simp only [wordAt, List.getD_eq_getElem?_getD]
  congr 1 <;> rw [List.getElem?_eq_getElem (by omega)] <;> rfl

theorem extractLsb'_low_eq_setWidth (v : Dword) : v.extractLsb' 0 32 = v.setWidth 32 :=
  (withCounter_low (Vector.replicate 16 0) v).symm.trans (withCounter_low_eq_setWidth _ v)

theorem extractLsb'_high_eq_setWidth (v : Dword) : v.extractLsb' 32 32 = (v >>> 32).setWidth 32 :=
  (withCounter_high (Vector.replicate 16 0) v).symm.trans (withCounter_high_eq_setWidth _ v)

/-- A LOAD that succeeds, as a record (R91). -/
theorem exec_load_of_initMatrix {key : List Byte} {nonce : Vector Byte 8} {ctr0 : Dword} {m : StateMatrix}
    (hm : initMatrix key nonce ctr0 = some m) (s : State) :
    exec (.load key nonce ctr0) s =
      .next { s with x := m, off := 64, ready := true, output := s.output ++ [.rsp .ok] } := by
  rw [exec, execLoad, hm]
  rfl

/-- Settles O23: each key length has its constants and its two halves at the positions of R11, and any other length is
refused. -/
theorem loadBuildsInstanceOrNothing : Obligations.LoadBuildsInstanceOrNothing := by
  intro key nonce ctr0 s k0 k1
  refine ⟨fun hkey => ?_, fun h16 h32 => exec_load_of_wrong_length h16 h32 nonce ctr0 s⟩
  obtain h | h := hkey
  · rw [exec_load_of_initMatrix (initMatrix_of_16 h nonce ctr0) s]
    simp [k0, k1, h, matrixOf, tau, keyHalf, nonceWords, wordAt_eq_getD, extractLsb'_low_eq_setWidth,
      extractLsb'_high_eq_setWidth]
  · rw [exec_load_of_initMatrix (initMatrix_of_32 h nonce ctr0) s]
    simp [k0, k1, h, matrixOf, sigma, keyHalf, nonceWords, wordAt_eq_getD, extractLsb'_low_eq_setWidth,
      extractLsb'_high_eq_setWidth]

/-- Settles O25: CINC is the addition of 1 to the view CTR, whose value is that of its two words. -/
theorem counterIncrementIsModular : Obligations.CounterIncrementIsModular := by
  intro x
  rw [counterInc_eq, counterOf_withCounter, BitVec.toNat_add, counterOf_toNat]
  rfl

/-- INIT with another counter is INIT and then a write of the counter (R90, R96). -/
theorem initMatrix_eq_map_withCounter (key : List Byte) (nonce : Vector Byte 8) (c0 c : Dword) :
    initMatrix key nonce c = (initMatrix key nonce c0).map fun m => withCounter m c := by
  unfold initMatrix
  split_ifs <;> simp only [Option.map_some, Option.map_none, matrixOf_withCounter]

/-- Settles O26: SCTR's matrix is INIT's with the counter written. -/
theorem seekEqualsFreshInit : Obligations.SeekEqualsFreshInit := by
  intro key nonce c0 c s h
  refine ⟨?_, counterOf_withCounter s.x c⟩
  rw [initMatrix_eq_map_withCounter key nonce c0 c, h]
  rfl

/-- Settles O27, by the closed form of PBLK. -/
theorem blockIsKeystreamOfCounter : Obligations.BlockIsKeystreamOfCounter :=
  fun s sel window v c => ⟨s.pblk_eq sel window, keystreamBlock_withCounter s.x v c⟩

end Sys2Proof.Machine
end

section
/-! The keystream of an instance from its start, after a SEEK, and around the whole counter (R98, R125, R129, R165,
R166). -/

namespace Sys2Proof.Machine

/-! ### From an empty buffer -/

theorem State.leftover_of_empty {s : State} (ho : s.off = 64) : s.leftover = 0 := by
  rw [State.leftover, ho]
  rfl

/-- From an empty buffer the stream is fresh keystream (R126). -/
theorem State.stream_of_empty {s : State} (ho : s.off = 64) (n : Nat) : s.stream n = freshBytes s.x n := by
  rw [s.stream_append_fresh (by rw [State.leftover_of_empty ho]; exact Nat.zero_le n), State.leftover_of_empty ho]
  rfl

/-- A fresh byte read from its block as a list (R98). -/
theorem freshByte_eq_getD (x : StateMatrix) (k : Nat) :
    freshByte x k = (keystreamBlock x (counterOf x + BitVec.ofNat 64 (k / 64))).toList.getD (k % 64) 0 := by
  rw [freshByte, List.getD_eq_getElem _ _ (by simpa using Nat.mod_lt k (by decide)), Vector.getElem_toList]

/-- The first block of fresh keystream is `KS(CTR)` (R98). -/
theorem freshBytes_block (x : StateMatrix) : freshBytes x 64 = (keystreamBlock x (counterOf x)).toList := by
  rw [freshBytes_of_le x (Nat.le_refl 64), List.take_of_length_le (by simp)]

/-- A LOAD with a right key leaves an instance with INIT's matrix and an empty buffer (R91). -/
theorem State.answer_load {key : List Byte} {nonce : Vector Byte 8} {ctr0 : Dword} {m : StateMatrix}
    (hm : initMatrix key nonce ctr0 = some m) (s : State) :
    s.answer (.load key nonce ctr0) =
      { s with x := m, off := 64, ready := true, output := s.output ++ [.rsp .ok] } :=
  Host.Outcome.next.inj ((exec_eq _ s).symm.trans (exec_load_of_initMatrix hm s))

/-- Settles O47: after the LOAD the buffer is empty and the counter is `c0`, so the data commands together use fresh
keystream from it, and the closed form gives the counter and the cursor. -/
theorem loadedInstanceStreamsInOrder : Obligations.LoadedInstanceStreamsInOrder := by
  intro key nonce c0 cmds s hkey hdata data
  obtain ⟨m, hm⟩ := exists_initMatrix hkey nonce c0
  have hload := State.answer_load hm s
  generalize hs1 : s.answer (.load key nonce c0) = s1 at hload
  have hdout : s1.dout = s.dout := by rw [← hs1, State.answer_dout, s.dataOut_of_no_data rfl, List.append_nil]
  have hready : s1.ready = true := by rw [hload]
  have hoff : s1.off = 64 := by rw [hload]
  have hx : s1.x = m := by rw [hload]
  have hctr : s1.ctr = c0 := by rw [State.ctr, hx, counterOf_initMatrix hm]
  obtain ⟨-, hstate, hout⟩ := foldl_answer_data cmds s1 hready hdata
  refine ⟨m, _, hm, execAll_eq _ s, ?_, ?_, ?_⟩ <;> rw [List.foldl_cons, hs1]
  · rw [hout, hdout, State.stream_of_empty hoff, hx]
    refine congrArg (s.dout ++ mixBytes .xor data ·) (List.map_congr_left fun k _ => ?_)
    rw [freshByte_eq_getD, counterOf_initMatrix hm]
  · rw [State.ctr, hstate.x]
    refine (s1.afterData_ctr _).trans ?_
    rw [hctr, State.blocksFor, State.leftover_of_empty hoff]
    rfl
  · rw [hstate.off, State.afterData_off_val, State.leftover_of_empty hoff, hoff, Nat.sub_zero]
    obtain h0 | hpos := Nat.eq_zero_or_pos data.length
    · rw [h0]
      rfl
    · rw [if_neg (Nat.not_le.2 hpos)]

/-! ### After a SEEK -/

/-- GEN 64 from an empty buffer puts out the block of the counter (R122, R131). -/
theorem State.dout_answer_gen_block {s : State} (hr : s.ready = true) (ho : s.off = 64) {x : StateMatrix} {c : Dword}
    (hx : s.x = withCounter x c) : (s.answer (.gen 64)).dout = s.dout ++ (keystreamBlock x c).toList := by
  have hblock := freshBytes_block s.x
  rw [hx, counterOf_withCounter, keystreamBlock_withCounter, ← hx] at hblock
  rw [State.answer_dout, State.dataOut_gen hr, State.stream_of_empty ho]
  exact congrArg (s.dout ++ ·) hblock

/-- GEN 64 puts out the leftover bytes and then, of the block of the counter, the bytes up to the old cursor (R126). -/
theorem State.dout_answer_gen_across {s : State} (hr : s.ready = true) {x : StateMatrix} {c : Dword}
    (hx : s.x = withCounter x c) : (s.answer (.gen 64)).dout =
      s.dout ++ s.ovb.toList.drop s.off.val ++ (keystreamBlock x c).toList.take s.off.val := by
  have hl := s.leftover_add_off
  have hrest : 64 - s.leftover = s.off.val := by omega
  have hleft : s.stream s.leftover = s.ovb.toList.drop s.off.val := by
    rw [s.stream_of_le (Nat.le_refl _), List.take_of_length_le (by simp [State.leftover])]
  have hsplit := s.stream_append_fresh (n := 64) (by omega)
  rw [hleft, hrest, freshBytes_of_le s.x (by omega), hx, counterOf_withCounter, keystreamBlock_withCounter] at hsplit
  rw [State.answer_dout, State.dataOut_gen hr, List.append_assoc]
  exact congrArg (s.dout ++ ·) hsplit

/-- GEN 64 across a block's end makes one block and brings the cursor back (R126, R165). -/
theorem State.afterData_block_across {s : State} (hpos : 0 < s.off.val) (hlt : s.off.val < 64) :
    (s.afterData 64).off = s.off ∧ (s.afterData 64).ctr = s.ctr + 1 := by
  have hl := s.leftover_add_off
  have hone : s.blocksFor 64 = 1 := by
    unfold State.blocksFor
    omega
  refine ⟨Fin.ext ?_, ?_⟩
  · rw [State.afterData_off_val]
    split_ifs <;> omega
  · rw [State.afterData_ctr, hone]
    rfl

/-- Settles O49: SEEK moves the counter only. With an empty buffer GEN 64 is the block of the new counter, and LOAD
leaves the same matrix (R96); with leftover bytes GEN 64 puts these out first and makes one block. -/
theorem seekThenGenerate : Obligations.SeekThenGenerate := by
  intro c c0 key nonce s hr hinit
  have hseek : s.answer (.seek c) = (s.sctr c).respond .ok := State.answer_seek hr c
  have hready : (s.answer (.seek c)).ready = true := by rw [hseek]; exact hr
  have hx : (s.answer (.seek c)).x = withCounter s.x c := by rw [hseek]; rfl
  have hoff : (s.answer (.seek c)).off = s.off := by rw [hseek]; rfl
  have hovb : (s.answer (.seek c)).ovb = s.ovb := by rw [hseek]; rfl
  have hdout (i : Instr) (hi : i.dataBytes = []) : (s.answer i).dout = s.dout := by
    rw [State.answer_dout, s.dataOut_of_no_data hi, List.append_nil]
  refine ⟨fun ho => ⟨_, _, execAll_eq _ s, execAll_eq _ s, ?_⟩, fun hpos hlt => ⟨_, execAll_eq _ s, ?_⟩⟩
  · have hload := State.answer_load (seekEqualsFreshInit key nonce c0 c s hinit).1 s
    have hgen := State.dout_answer_gen_block hready (hoff.trans ho) hx
    have hgen' := State.dout_answer_gen_block (s := s.answer (.load key nonce c)) (by rw [hload]) (by rw [hload])
      (show _ = withCounter s.x c by rw [hload]; rfl)
    rw [hdout _ rfl] at hgen hgen'
    exact ⟨hgen, hgen'.trans hgen.symm⟩
  · have hgen := State.dout_answer_gen_across hready hx
    rw [hdout _ rfl, hovb, hoff] at hgen
    obtain ⟨hcur, hctr⟩ := State.afterData_block_across (hoff ▸ hpos) (hoff ▸ hlt)
    have heffect : (s.answer (.seek c)).effect (.gen 64) = (s.answer (.seek c)).afterData 64 :=
      State.effect_data hready rfl
    refine ⟨hgen, ?_, ?_⟩
    · exact (congrArg State.off heffect).trans (hcur.trans hoff)
    · refine (congrArg State.ctr heffect).trans (hctr.trans ?_)
      rw [State.ctr, hx, counterOf_withCounter]

/-! ### Around the counter -/

/-- `2^70` bytes are `2^64` blocks, so the counter comes round (R98, R166). -/
theorem State.afterData_wrap_x {s : State} (ho : 0 < s.off.val) : (s.afterData (2 ^ 70)).x = s.x := by
  have hl := s.leftover_add_off
  have hblocks : s.blocksFor (2 ^ 70) = 2 ^ 64 := by
    unfold State.blocksFor
    omega
  have hzero : BitVec.ofNat 64 (2 ^ 64) = 0#64 := rfl
  rw [State.afterData_x_eq, hblocks, hzero, BitVec.add_zero]
  exact withCounter_counterOf s.x

theorem State.afterData_wrap_off {s : State} (ho : 0 < s.off.val) : (s.afterData (2 ^ 70)).off = s.off := by
  have hl := s.leftover_add_off
  apply Fin.ext
  rw [State.afterData_off_val]
  split_ifs <;> omega

/-- The last of `2^64` blocks is that of the counter before the first (R98). -/
theorem freshByte_last_block (x : StateMatrix) {j : Nat} (hj : j < 64) :
    freshByte x (2 ^ 70 - 64 + j) = (keystreamBlock x (counterOf x - 1))[j] := by
  have hdiv : (2 ^ 70 - 64 + j) / 64 = 2 ^ 64 - 1 := by omega
  have hmod : (2 ^ 70 - 64 + j) % 64 = j := by omega
  have hlast : counterOf x + BitVec.ofNat 64 (2 ^ 64 - 1) = counterOf x - 1 := by
    rw [BitVec.sub_eq_add_neg]
    rfl
  simp only [freshByte, hdiv, hmod, hlast]

/-- After `2^70` bytes the leftover bytes are those of the block before `CTR` (R114, R166). -/
theorem State.alike_afterData_wrap {s : State} (ho : 0 < s.off.val)
    (hovb : s.off.val < 64 → s.ovb = keystreamBlock s.x (s.ctr - 1)) : (s.afterData (2 ^ 70)).Alike s := by
  have hl := s.leftover_add_off
  have hoff := State.afterData_wrap_off ho
  refine ⟨State.afterData_wrap_x ho, hoff, fun j hj hle => ?_⟩
  have hk : 2 ^ 70 + (j - s.off.val) - s.leftover = 2 ^ 70 - 64 + j := by rw [hoff] at hle; omega
  calc (s.afterData (2 ^ 70)).ovb[j]
      = s.streamByte (2 ^ 70 + (j - s.off.val)) := by
        rw [State.ovb_eq_streamByte _ j hj hle, hoff, State.streamByte_afterData]
    _ = freshByte s.x (2 ^ 70 - 64 + j) := by rw [State.streamByte, dif_neg (by omega), hk]
    _ = (keystreamBlock s.x (s.ctr - 1))[j] := freshByte_last_block s.x hj
    _ = s.ovb[j] := by rw [hoff] at hle; rw [hovb (by omega)]

/-- Settles O28: the commands together are one request of `2^70` bytes, which brings back `X`, the cursor and the
leftover bytes, and alike states have the same stream. -/
theorem keystreamRepeatsAfterWrap : Obligations.KeystreamRepeatsAfterWrap := by
  intro cmds s hr ho hdata hlen
  have hpos : 0 < s.off.val := Nat.pos_of_ne_zero fun h0 => ho (Fin.ext h0)
  obtain ⟨hready, hstate, -⟩ := foldl_answer_data cmds s hr hdata
  rw [hlen] at hstate
  refine ⟨_, execAll_eq cmds s, hstate.x.trans (State.afterData_wrap_x hpos),
    hstate.off.trans (State.afterData_wrap_off hpos), fun hovb => ?_⟩
  have halike := hstate.trans (State.alike_afterData_wrap hpos hovb)
  refine ⟨fun j hj hle => halike.symm.leftover j hj hle |>.symm, fun data => ?_⟩
  refine ⟨s.dataOut (.enc data), _, _, exec_eq _ s, s.answer_dout _, exec_eq _ _, ?_⟩
  rw [State.answer_dout, State.dataOut_data hready rfl, State.dataOut_data hr rfl, halike.stream]

end Sys2Proof.Machine
end

section
/-! Runs of the machine over what the host sends: they are the answers in order (R39), and failing commands and illegal
headers leave no trace in them (R143, R147). -/

namespace Sys2Proof.Machine

/-! ### The block does not depend on its ports -/

/-- The same block with other streams on its ports. -/
def State.withPorts (s : State) (inp : List Input) (out : List Output) : State := { s with input := inp, output := out }

theorem State.afterData_withPorts (s : State) (inp : List Input) (out : List Output) (n : Nat) :
    (s.withPorts inp out).afterData n = (s.afterData n).withPorts inp out := by
  unfold State.afterData
  by_cases h : n ≤ s.leftover
  · rw [dif_pos h, dif_pos (by exact h)]
    rfl
  · rw [dif_neg h, dif_neg (by exact h)]
    dsimp only
    split
    · rw [if_pos (by assumption)]; rfl
    · rw [if_neg (by assumption)]; rfl

theorem State.effect_withPorts (s : State) (inp : List Input) (out : List Output) (i : Instr) :
    (s.withPorts inp out).effect i = (s.effect i).withPorts inp out := by
  obtain ⟨hs, h⟩ | ⟨key, nonce, ctr0, m, rfl, hkey, hm, h⟩ | ⟨hr, hi, h⟩ | ⟨hr, value, rfl, h⟩ := s.effect_cases i <;>
    rw [h]
  · exact State.effect_of_fails hs
  · exact State.effect_load (decide_eq_true hkey) hm
  · exact (State.effect_data (s := s.withPorts inp out) hr hi).trans (s.afterData_withPorts inp out _)
  · exact State.effect_seek (s := s.withPorts inp out) hr value

/-- An answer depends on the ports only in that it stands behind what is on them. -/
theorem State.answer_withPorts (s : State) (inp : List Input) (out : List Output) (i : Instr) :
    (s.withPorts inp out).answer i =
      (s.answer i).withPorts inp (out ++ (s.dataOut i).map .dout ++ [.rsp (s.response i)]) := by
  rw [State.answer, State.effect_withPorts]
  rfl

/-! ### What the host sends is received in order (R39, R50) -/

/-- The state after the block has taken one thing the host has sent. -/
def State.receive (s : State) : Sent → State
  | .frame i => s.answer i
  | .badHeader _ _ _ _ => s.raiseError .illegalCmd
  | .reset => s.assertReset

theorem State.receive_withInput (s : State) (inp : List Input) (a : Sent) :
    State.receive { s with input := inp } a = { s.receive a with input := inp } := by
  cases a with
  | badHeader => rfl
  | reset => rfl
  | frame i =>
    have h := s.answer_withPorts inp s.output i
    rw [← s.answer_output i] at h
    exact h

/-- The next step takes the first thing the host has sent, and leaves the rest (R39, R50). -/
theorem step_sent {a : Sent} (h : a.WellFormed) (s : State) (rest : List Input) :
    step { s with input := a.inputs ++ rest } = .next { s.receive a with input := rest } := by
  rw [← State.receive_withInput]
  cases a with
  | frame i => exact (step_encode_append h rfl).trans (exec_eq i _)
  | badHeader h0 h1 h2 h3 => exact step_illegalHeader h rfl
  | reset => exact step_partialFrame_rst (sent := []) (.inl (by decide)) rfl

/-- A run goes on from the state its first step answers. -/
theorem run_succ_of_next (M : Host.Core) {s t : M.State} (h : M.step s = .next t) (n : Nat) :
    M.run (n + 1) s = M.run n t := by
  rw [Host.Core.run, h]

/-- A run over what the host has sent is its receipt in order, whatever stands behind it (R39). -/
theorem run_sent (sent : List Sent) (h : ∀ a ∈ sent, a.WellFormed) (s : State) (rest : List Input) :
    core.run sent.length { s with input := sent.flatMap Sent.inputs ++ rest } =
      .next { sent.foldl State.receive s with input := rest } := by
  induction sent generalizing s with
  | nil => rfl
  | cons a as ih =>
    have hstep := step_sent (h a List.mem_cons_self) s (as.flatMap Sent.inputs ++ rest)
    rw [List.flatMap_cons, List.append_assoc, List.length_cons, run_succ_of_next core hstep]
    exact ih (fun b hb => h b (List.mem_cons_of_mem a hb)) (s.receive a)

theorem foldl_answer_input (is : List Instr) (s : State) : (is.foldl State.answer s).input = s.input := by
  induction is generalizing s with
  | nil => rfl
  | cons i is ih => rw [List.foldl_cons, ih, State.answer_input]

theorem State.withInput_of_eq {s : State} {inp : List Input} (h : s.input = inp) : { s with input := inp } = s := by
  subst h
  rfl

theorem flatMap_inputs_frame (is : List Instr) :
    (is.map Sent.frame).flatMap Sent.inputs = (is.flatMap encode).map .byte := by
  rw [List.flatMap_map, List.map_flatMap]
  rfl

/-- Settles O14: frames are received in order, and receiving a frame is its command's transition. -/
theorem framesComposeInOrder : Obligations.FramesComposeInOrder := by
  intro is s rest hw
  have hsent : ∀ a ∈ is.map Sent.frame, a.WellFormed := by
    intro a ha
    obtain ⟨i, hi, rfl⟩ := List.mem_map.1 ha
    exact hw i hi
  have hrun := run_sent (is.map .frame) hsent { s with input := rest } rest
  rw [List.length_map, flatMap_inputs_frame, List.foldl_map] at hrun
  rw [execAll_eq]
  exact hrun.trans (congrArg _ (State.withInput_of_eq (foldl_answer_input is _)))

/-! ### What leaves no trace (R143, R147) -/

/-- Two states that differ at most in what the host has sent and in the responses. -/
structure State.SameRun (s t : State) : Prop where
  x : s.x = t.x
  ovb : s.ovb = t.ovb
  off : s.off = t.off
  ready : s.ready = t.ready
  dout : s.dout = t.dout

theorem State.SameRun.refl (s : State) : s.SameRun s := ⟨rfl, rfl, rfl, rfl, rfl⟩

theorem State.SameRun.eq_withPorts {s t : State} (h : s.SameRun t) : t = s.withPorts t.input t.output := by
  rw [State.withPorts, h.x, h.ovb, h.off, h.ready]

theorem State.SameRun.eq_without_output {s t : State} (h : s.SameRun t) (hin : s.input = t.input) :
    { s with output := [] } = { t with output := [] } := by
  rw [h.x, h.ovb, h.off, h.ready, hin]

/-- The same thing received keeps two runs the same. -/
theorem State.SameRun.receive {s t : State} (h : s.SameRun t) (a : Sent) : (s.receive a).SameRun (t.receive a) := by
  cases a with
  | frame i =>
    have hanswer := s.answer_withPorts t.input t.output i
    rw [← h.eq_withPorts] at hanswer
    have hbytes : t.dataOut i = s.dataOut i := by rw [h.eq_withPorts]; rfl
    simp only [State.receive]
    refine ⟨?_, ?_, ?_, ?_, ?_⟩
    · rw [hanswer]; rfl
    · rw [hanswer]; rfl
    · rw [hanswer]; rfl
    · rw [hanswer]; rfl
    · rw [State.answer_dout, State.answer_dout, h.dout, hbytes]
  | badHeader =>
    refine ⟨h.x, h.ovb, h.off, h.ready, ?_⟩
    simp only [State.receive, State.dout_raiseError, h.dout]
  | reset => exact ⟨rfl, rfl, rfl, rfl, h.dout⟩

/-- A failing frame leaves no trace (R147). -/
theorem State.sameRun_answer_of_fails {s : State} {i : Instr} (h : Sent.succeeds s.ready i = false) :
    (s.answer i).SameRun s := by
  rw [State.answer_of_fails h]
  exact ⟨rfl, rfl, rfl, rfl, State.dout_respond s _⟩

/-- An illegal header leaves no trace (R143, R147). -/
theorem State.sameRun_raiseError (s : State) (e : Error) : (s.raiseError e).SameRun s :=
  ⟨rfl, rfl, rfl, rfl, State.dout_raiseError s e⟩

theorem State.SameRun.trans {s t u : State} (h : s.SameRun t) (h' : t.SameRun u) : s.SameRun u :=
  ⟨h.x.trans h'.x, h.ovb.trans h'.ovb, h.off.trans h'.off, h.ready.trans h'.ready, h.dout.trans h'.dout⟩

/-- After a command that succeeds an instance exists (R17). -/
theorem State.answer_ready_of_succeeds {s : State} {i : Instr} (h : Sent.succeeds s.ready i = true) :
    (s.answer i).ready = true := by
  rw [State.answer_ready, State.effect_ready, h, Bool.or_true]

/-- Without the failing frames and the illegal headers the run is the same (R147). -/
theorem sameRun_foldl_succeedingSent (sent : List Sent) {s t : State} (h : s.SameRun t) :
    (sent.foldl State.receive s).SameRun ((succeedingSent s.ready sent).foldl State.receive t) := by
  induction sent generalizing s t with
  | nil => exact h
  | cons a as ih =>
    cases a with
    | badHeader h0 h1 h2 h3 => exact ih ((s.sameRun_raiseError .illegalCmd).trans h)
    | reset => exact ih (h.receive .reset)
    | frame i =>
      rw [List.foldl_cons, succeedingSent]
      split_ifs with hs
      · have hkept := ih (h.receive (.frame i))
        rwa [State.receive, State.answer_ready_of_succeeds hs] at hkept
      · have hfails := State.sameRun_answer_of_fails (Bool.eq_false_iff.2 hs)
        have hdropped := ih (hfails.trans h)
        rwa [hfails.ready] at hdropped

/-- What is left is among what was sent. -/
theorem mem_of_mem_succeedingSent {a : Sent} {sent : List Sent} {ready : Bool} (h : a ∈ succeedingSent ready sent) :
    a ∈ sent := by
  induction sent generalizing ready with
  | nil => exact h
  | cons b bs ih =>
    cases b with
    | badHeader => exact List.mem_cons_of_mem _ (ih h)
    | reset =>
      obtain rfl | h := List.mem_cons.1 h
      · exact List.mem_cons_self
      · exact List.mem_cons_of_mem _ (ih h)
    | frame i =>
      rw [succeedingSent] at h
      split_ifs at h
      · obtain rfl | h := List.mem_cons.1 h
        · exact List.mem_cons_self
        · exact List.mem_cons_of_mem _ (ih h)
      · exact List.mem_cons_of_mem _ (ih h)

/-- Settles O60: both runs are receipts in order, and these are the same without what fails. -/
theorem failedFramesLeaveNoTrace : Obligations.FailedFramesLeaveNoTrace := by
  intro sent s rest hw
  have hsame := sameRun_foldl_succeedingSent sent (State.SameRun.refl s)
  refine ⟨_, _, run_sent sent hw s rest,
    run_sent _ (fun a ha => hw a (mem_of_mem_succeedingSent ha)) s rest, hsame.dout, ?_⟩
  exact State.SameRun.eq_without_output ⟨hsame.x, hsame.ovb, hsame.off, hsame.ready, hsame.dout⟩ rfl

/-- Of commands sent as frames, those that are left are the commands that do not fail. -/
theorem succeedingSent_map_frame (ready : Bool) (is : List Instr) :
    succeedingSent ready (is.map .frame) = (succeeding ready is).map .frame := by
  induction is generalizing ready with
  | nil => rfl
  | cons i is ih =>
    cases i with
    | load key nonce ctr0 =>
      by_cases hkey : key.length = 16 ∨ key.length = 32 <;>
        simp [succeedingSent, succeeding, Sent.succeeds, hkey, ih]
    | gen => cases ready <;> simp [succeedingSent, succeeding, Sent.succeeds, ih]
    | enc => cases ready <;> simp [succeedingSent, succeeding, Sent.succeeds, ih]
    | seek => cases ready <;> simp [succeedingSent, succeeding, Sent.succeeds, ih]

/-- Settles O51: a run of commands is the receipt of their frames, and the failing ones leave no trace in it. -/
theorem failedCommandsLeaveNoTrace : Obligations.FailedCommandsLeaveNoTrace := by
  intro is s
  have hsame := sameRun_foldl_succeedingSent (is.map .frame) (State.SameRun.refl s)
  rw [succeedingSent_map_frame, List.foldl_map, List.foldl_map] at hsame
  refine ⟨_, _, execAll_eq is s, execAll_eq _ s, hsame.dout, State.SameRun.eq_without_output hsame ?_⟩
  exact (foldl_answer_input is s).trans (foldl_answer_input _ s).symm

/-! ### The textual form (R60, R61) -/

/-- Settles O59: each expansion is one frame, a sequence of frames, or RST. -/
theorem pseudoCommandsExpand : Obligations.PseudoCommandsExpand := by
  refine ⟨fun d => ?_, fun k n c => ?_, fun n => ?_, fun n => ?_, rfl⟩
  · simp [assemble, AsmLine.expand, HostMove.inputs]
  · simp [assemble, AsmLine.expand, HostMove.inputs]
  · simp [assemble, AsmLine.expand, HostMove.inputs]
  · simp [assemble, AsmLine.expand, HostMove.inputs, List.flatMap_map, List.map_flatMap]

end Sys2Proof.Machine
end
